-- ==== Sys2Proof/Word.lean ====
section
/-! DEFINITION. The data types of the machine: bytes and register indices (spec/00_scope.md R4, R6). -/

namespace Sys2Proof

/-- Every architectural value is an unsigned 8-bit number (R6): a cell, a register, the program counter, the flags. -/
abbrev Byte := BitVec 8

/-- A register index, 0 to 7 (R11). -/
abbrev RegIdx := Fin 8

/-- The well-formed register operand byte `00000rrr` that names register `r` (R54). -/
def regByte (r : RegIdx) : Byte := BitVec.ofNat 8 r.val

end Sys2Proof
end

