-- ==== Sys2Proof/Syntax.lean ====
section
/-! DEFINITION. The instruction set: one constructor per row of spec/opcode_table.json (spec/30_encoding.md R56), in the table's
order. An operand is the whole operand byte as it stands in memory (R54, R55, spec/40_fetch_decode_dispatch.md R75: "raw at
this point"); whether a register byte is in range is the handler's check. -/

namespace Sys2Proof

/-- The 35 instructions (R56). `a` and `b` are the first and second operand byte; `imm` is an immediate. -/
inductive Instr where
  /-- No operation (R146). -/
  | nop
  /-- Halt (R145). -/
  | hlt
  /-- Return from a call (R138). -/
  | ret
  /-- The inert interrupt return (R150). -/
  | iret
  /-- Push a register (R123). -/
  | push (a : Byte)
  /-- Pop into a register (R124). -/
  | pop (a : Byte)
  /-- Emit a register as a number (R147). -/
  | prn (a : Byte)
  /-- Emit a register as a character (R148). -/
  | pra (a : Byte)
  /-- Call the address in a register (R137). -/
  | call (a : Byte)
  /-- The inert interrupt instruction; its operand byte is read and ignored (R149). -/
  | int (a : Byte)
  /-- Jump to the address in a register (R130). -/
  | jmp (a : Byte)
  /-- Jump if equal (R131). -/
  | jeq (a : Byte)
  /-- Jump if not equal (R132). -/
  | jne (a : Byte)
  /-- Jump if greater (R133). -/
  | jgt (a : Byte)
  /-- Jump if less (R135). -/
  | jlt (a : Byte)
  /-- Jump if less or equal (R136). -/
  | jle (a : Byte)
  /-- Jump if greater or equal (R134). -/
  | jge (a : Byte)
  /-- Increment (R113). -/
  | inc (a : Byte)
  /-- Decrement (R114). -/
  | dec (a : Byte)
  /-- Bitwise complement (R110). -/
  | not (a : Byte)
  /-- Load an immediate (R120). -/
  | ldi (a imm : Byte)
  /-- Load from memory; the second register holds the address (R121). -/
  | ld (a b : Byte)
  /-- Store to memory; the first register holds the address (R122). -/
  | st (a b : Byte)
  /-- Add (R102). -/
  | add (a b : Byte)
  /-- Subtract (R103). -/
  | sub (a b : Byte)
  /-- Multiply (R104). -/
  | mul (a b : Byte)
  /-- Divide (R105). -/
  | div (a b : Byte)
  /-- Remainder (R106). -/
  | mod (a b : Byte)
  /-- Compare (R115). -/
  | cmp (a b : Byte)
  /-- Bitwise and (R107). -/
  | and (a b : Byte)
  /-- Bitwise or (R108). -/
  | or (a b : Byte)
  /-- Bitwise exclusive or (R109). -/
  | xor (a b : Byte)
  /-- Shift left (R111). -/
  | shl (a b : Byte)
  /-- Shift right (R112). -/
  | shr (a b : Byte)
  /-- Add an immediate (R116). -/
  | addi (a imm : Byte)
deriving DecidableEq, Repr

end Sys2Proof
end

