-- ==== Sys2Proof/WellFormed.lean ====
section
/-! DEFINITION. Which instructions are well formed: every register operand byte names one of the eight registers
(spec/30_encoding.md R54, spec/60_exceptions.md R164). An ill-formed instruction still decodes; its handler raises
`InvalidRegisterIndex`. -/

namespace Sys2Proof

/-- The operand bytes an instruction uses as register indices, first operand first (R164: `a` of every F1R instruction except
INT, `a` and `b` of every F2RR instruction, `a` of LDI and ADDI). -/
def Instr.regOperands : Instr → List Byte
  | .nop => []
  | .hlt => []
  | .ret => []
  | .iret => []
  | .push a => [a]
  | .pop a => [a]
  | .prn a => [a]
  | .pra a => [a]
  | .call a => [a]
  | .int _ => []
  | .jmp a => [a]
  | .jeq a => [a]
  | .jne a => [a]
  | .jgt a => [a]
  | .jlt a => [a]
  | .jle a => [a]
  | .jge a => [a]
  | .inc a => [a]
  | .dec a => [a]
  | .not a => [a]
  | .ldi a _ => [a]
  | .ld a b => [a, b]
  | .st a b => [a, b]
  | .add a b => [a, b]
  | .sub a b => [a, b]
  | .mul a b => [a, b]
  | .div a b => [a, b]
  | .mod a b => [a, b]
  | .cmp a b => [a, b]
  | .and a b => [a, b]
  | .or a b => [a, b]
  | .xor a b => [a, b]
  | .shl a b => [a, b]
  | .shr a b => [a, b]
  | .addi a _ => [a]

/-- A register operand byte is well formed when it is at most 7 (R54). -/
def regOperandOk (b : Byte) : Bool := decide (b.toNat ≤ 7)

/-- An instruction is well formed when each of its register operand bytes is (R54). -/
def Instr.wellFormed (i : Instr) : Bool := i.regOperands.all regOperandOk

end Sys2Proof
end

