-- ==== Sys2Proof/Decode.lean ====
section
/-! DEFINITION. The instruction decoder (spec/40_fetch_decode_dispatch.md R70, R71), the opcode map (spec/30_encoding.md R56),
the decoder from bytes to instructions, and after it the encoder written from the same map. -/

namespace Sys2Proof

/-- The four fields of an opcode byte (R51, R70). -/
structure Fields where
  /-- Bits 7:6, the number of operand bytes that follow; 3 belongs to no instruction (R71). -/
  operandCount : BitVec 2
  /-- Bit 5, the ALU marker. -/
  isAlu : Bool
  /-- Bit 4, the PC-set marker. -/
  setsPc : Bool
  /-- Bits 3:0, the identifier within the class. -/
  id : BitVec 4
deriving DecidableEq, Repr

/-- `Decode(op)`: the block `instruction_decoder`, pure and total over all 256 bytes (R70, R71). -/
def decodeFields (op : Byte) : Fields where
  operandCount := op.extractLsb' 6 2
  isAlu := op.getLsbD 5
  setsPc := op.getLsbD 4
  id := op.extractLsb' 0 4

/-- What follows a recognised opcode byte: the operand bytes it takes and the instruction they make (R53). -/
inductive Shape where
  /-- Format F0: no operand byte. -/
  | f0 (i : Instr)
  /-- Format F1R: one operand byte. -/
  | f1 (mk : Byte → Instr)
  /-- Formats F2RR and F2RI: two operand bytes. -/
  | f2 (mk : Byte → Byte → Instr)

/-- Rows of the opcode map (R56) whose `operand_count` is 0. UNVERIFIED, unsafe: the numeric values of the whole map are the
spec's decision D7 (log 1). -/
def opcodeMap0 : List (Byte × Shape) :=
  [ (0x00#8, .f0 .nop), (0x01#8, .f0 .hlt), (0x11#8, .f0 .ret), (0x13#8, .f0 .iret) ]

/-- Rows of the opcode map (R56) whose `operand_count` is 1. -/
def opcodeMap1 : List (Byte × Shape) :=
  [ (0x45#8, .f1 .push), (0x46#8, .f1 .pop), (0x47#8, .f1 .prn), (0x48#8, .f1 .pra),
    (0x50#8, .f1 .call), (0x52#8, .f1 .int), (0x54#8, .f1 .jmp), (0x55#8, .f1 .jeq),
    (0x56#8, .f1 .jne), (0x57#8, .f1 .jgt), (0x58#8, .f1 .jlt), (0x59#8, .f1 .jle),
    (0x5A#8, .f1 .jge), (0x65#8, .f1 .inc), (0x66#8, .f1 .dec), (0x69#8, .f1 .not) ]

/-- Rows of the opcode map (R56) whose `operand_count` is 2. ADDI's value 0xAE is the spec's decision D8 (log 1). -/
def opcodeMap2 : List (Byte × Shape) :=
  [ (0x82#8, .f2 .ldi), (0x83#8, .f2 .ld), (0x84#8, .f2 .st), (0xA0#8, .f2 .add),
    (0xA1#8, .f2 .sub), (0xA2#8, .f2 .mul), (0xA3#8, .f2 .div), (0xA4#8, .f2 .mod),
    (0xA7#8, .f2 .cmp), (0xA8#8, .f2 .and), (0xAA#8, .f2 .or), (0xAB#8, .f2 .xor),
    (0xAC#8, .f2 .shl), (0xAD#8, .f2 .shr), (0xAE#8, .f2 .addi) ]

/-- `OPCODE_MAP`: the 35 rows of R56. -/
def opcodeMap : List (Byte × Shape) := opcodeMap0 ++ opcodeMap1 ++ opcodeMap2

/-- Looking an opcode byte up among rows of the map. -/
def lookupOpcode (op : Byte) : List (Byte × Shape) → Option Shape
  | [] => none
  | (k, sh) :: rows => if k = op then some sh else lookupOpcode op rows

/-- Opcode recognition by the whole byte (R58, R74). -/
def recognise (op : Byte) : Option Shape := lookupOpcode op opcodeMap

/-- Why the decoder rejects a list of bytes. -/
inductive DecodeError where
  /-- The first byte is none of the 35 opcodes (R59). -/
  | invalidOpcode (op : Byte)
  /-- The list ends before byte `k` of the instruction (byte 0 is the opcode). -/
  | missingByte (k : Nat)
deriving DecidableEq, Repr

/-- Taking the operand bytes a recognised opcode asks for, `a` before `b` (R75). -/
def Shape.takeOperands : Shape → List Byte → Except DecodeError (Instr × List Byte)
  | .f0 i, rest => .ok (i, rest)
  | .f1 _, [] => .error (.missingByte 1)
  | .f1 mk, a :: rest => .ok (mk a, rest)
  | .f2 _, [] => .error (.missingByte 1)
  | .f2 _, [_] => .error (.missingByte 2)
  | .f2 mk, a :: b :: rest => .ok (mk a b, rest)

/-- The decoder: the instruction at the head of a list of bytes and the bytes after it. Recognition comes before the operand
bytes (R74, D11). -/
def decode : List Byte → Except DecodeError (Instr × List Byte)
  | [] => .error (.missingByte 0)
  | op :: rest =>
    match recognise op with
    | none => .error (.invalidOpcode op)
    | some sh => sh.takeOperands rest

/-- The opcode byte of an instruction, from the column "Opcode" of R56. -/
def Instr.opcode : Instr → Byte
  | .nop => 0b00000000#8
  | .hlt => 0b00000001#8
  | .ret => 0b00010001#8
  | .iret => 0b00010011#8
  | .push _ => 0b01000101#8
  | .pop _ => 0b01000110#8
  | .prn _ => 0b01000111#8
  | .pra _ => 0b01001000#8
  | .call _ => 0b01010000#8
  | .int _ => 0b01010010#8
  | .jmp _ => 0b01010100#8
  | .jeq _ => 0b01010101#8
  | .jne _ => 0b01010110#8
  | .jgt _ => 0b01010111#8
  | .jlt _ => 0b01011000#8
  | .jle _ => 0b01011001#8
  | .jge _ => 0b01011010#8
  | .inc _ => 0b01100101#8
  | .dec _ => 0b01100110#8
  | .not _ => 0b01101001#8
  | .ldi _ _ => 0b10000010#8
  | .ld _ _ => 0b10000011#8
  | .st _ _ => 0b10000100#8
  | .add _ _ => 0b10100000#8
  | .sub _ _ => 0b10100001#8
  | .mul _ _ => 0b10100010#8
  | .div _ _ => 0b10100011#8
  | .mod _ _ => 0b10100100#8
  | .cmp _ _ => 0b10100111#8
  | .and _ _ => 0b10101000#8
  | .or _ _ => 0b10101010#8
  | .xor _ _ => 0b10101011#8
  | .shl _ _ => 0b10101100#8
  | .shr _ _ => 0b10101101#8
  | .addi _ _ => 0b10101110#8

/-- The operand bytes of an instruction in memory order, `a` then `b` (R33, R50, R53). -/
def Instr.operandBytes : Instr → List Byte
  | .nop => []
  | .hlt => []
  | .ret => []
  | .iret => []
  | .push a => [a]
  | .pop a => [a]
  | .prn a => [a]
  | .pra a => [a]
  | .call a => [a]
  | .int a => [a]
  | .jmp a => [a]
  | .jeq a => [a]
  | .jne a => [a]
  | .jgt a => [a]
  | .jlt a => [a]
  | .jle a => [a]
  | .jge a => [a]
  | .inc a => [a]
  | .dec a => [a]
  | .not a => [a]
  | .ldi a imm => [a, imm]
  | .ld a b => [a, b]
  | .st a b => [a, b]
  | .add a b => [a, b]
  | .sub a b => [a, b]
  | .mul a b => [a, b]
  | .div a b => [a, b]
  | .mod a b => [a, b]
  | .cmp a b => [a, b]
  | .and a b => [a, b]
  | .or a b => [a, b]
  | .xor a b => [a, b]
  | .shl a b => [a, b]
  | .shr a b => [a, b]
  | .addi a imm => [a, imm]

/-- The bytes of an instruction in memory order: the opcode, then its operand bytes (R50). -/
def encode (i : Instr) : List Byte := i.opcode :: i.operandBytes

/-- The three bytes an opcode-table word stands for: bit 0 is the least significant bit of the first byte, and every bit at or
above `nbits` is 0. Three bytes is the longest instruction (R50). -/
def tableWordBytes (nbits w : Nat) : List Byte :=
  let v := w % 2 ^ nbits
  [BitVec.ofNat 8 v, BitVec.ofNat 8 (v / 256), BitVec.ofNat 8 (v / 65536)]

/-- The instruction the decoder reads from an opcode-table word. -/
def decodeTableWord (nbits w : Nat) : Option Instr :=
  match decode (tableWordBytes nbits w) with
  | .ok (i, _) => some i
  | .error _ => none

end Sys2Proof
end

