-- ==== Sys2Proof/Config.lean ====
section
/-! DEFINITION. The implementation parameters of spec/00_scope.md R4, under the spec's names and at the spec's values. The
three that the spec offers with an alternative are types with both settings, so that a reader sees what the choice is between
(spec/92_eei_decisions.md D2, D4, D10). `OPCODE_MAP` and `ADDI_OPCODE` are the table of Sys2Proof/Decode.lean. -/

namespace Sys2Proof

/-- `PC_OVERFLOW` (D2): what a `pc`-derived address above 255 does. -/
inductive PcOverflow where
  /-- The step raises `AddressOutOfRange`. -/
  | fault
  /-- The address is taken modulo 256. -/
  | wrap
deriving DecidableEq, Repr

/-- `REG_INDEX_CHECK` (D4): what a register operand byte above 7 does. -/
inductive RegIndexCheck where
  /-- The step raises `InvalidRegisterIndex`. -/
  | fault
  /-- The byte is masked to its low three bits. -/
  | mask3
deriving DecidableEq, Repr

/-- `INERT_PC` (D10): what `pc` does at INT and IRET. -/
inductive InertPc where
  /-- `pc` keeps the address of the INT or IRET. -/
  | stay
  /-- `pc` moves past the instruction. -/
  | advance
deriving DecidableEq, Repr

namespace Config

/-- `MEM_SIZE` (R4). -/
def memSize : Nat := 256

/-- `SP_INDEX` (R4): register 7 is the stack pointer. -/
abbrev spIndex : RegIdx := 7

/-- `SP_RESET` (R4). -/
def spReset : Byte := 0xF4#8

/-- `PC_RESET` (R4, D1). UNVERIFIED, unsafe: the spec's own decision (log 5). -/
def pcReset : Byte := 0x00#8

/-- `FL_RESET` (R4). -/
def flReset : Byte := 0x00#8

/-- `LOAD_BASE` (R4): where the loader puts the first program byte. -/
def loadBase : Nat := 0

/-- `PC_OVERFLOW` at the spec's default (R4, D2). UNVERIFIED, unsafe (log 2). -/
def pcOverflow : PcOverflow := .fault

/-- `REG_INDEX_CHECK` at the spec's default (R4, D4). UNVERIFIED, unsafe (log 3). -/
def regIndexCheck : RegIndexCheck := .fault

/-- `INERT_PC` at the spec's default (R4, D10). UNVERIFIED, unsafe (log 4). -/
def inertPc : InertPc := .stay

end Config

end Sys2Proof
end

