-- ==== Sys2Proof/Machine/State.lean ====
section
/-! DEFINITION. The architectural state of the machine (spec/10_state.md R10: "the following, and nothing else"), its reset
value (R29), and the reasons for which the model's step answers no next state. -/

namespace Sys2Proof.Machine

/-- What a fault records: the kind and its `info` (spec/60_exceptions.md R160). -/
inductive FaultRecord where
  /-- The byte fetched at `pc` is no opcode; `info` is that byte (R161). -/
  | invalidOpcode (op : Byte)
  /-- DIV or MOD with divisor 0; no `info` (R162). -/
  | divideByZero
  /-- A `pc`-derived address exceeds 255; `info` is the address (R163). -/
  | addressOutOfRange (addr : Nat)
  /-- A register operand byte exceeds 7; `info` is the byte (R164). -/
  | invalidRegisterIndex (b : Byte)
deriving DecidableEq, Repr

/-- The run status (R20). -/
inductive Status where
  /-- The run loop takes another step. -/
  | running
  /-- A HLT was executed. -/
  | halted
  /-- A fatal error occurred. -/
  | faulted (r : FaultRecord)
deriving DecidableEq, Repr

/-- An output event (R21): PRN appends `num`, PRA appends `char`. -/
inductive Event where
  /-- `(Num, v)`. -/
  | num (v : Byte)
  /-- `(Char, v)`. -/
  | char (v : Byte)
deriving DecidableEq, Repr

/-- The memory array (spec/20_memory.md R30) as the list of its cells that differ from the reset contents; its canonical form
is `Memory.wf` in Machine/Ops.lean. -/
abbrev Memory := List Host.Cell

/-- The whole architectural state (R10). -/
structure State where
  /-- `mem`: 256 cells of 8 bits (R30). -/
  mem : Memory
  /-- `x[0]` to `x[7]`; `x[7]` is SP (R11, R12). -/
  regs : Vector Byte 8
  /-- `pc`: the address of the next instruction to fetch (R15). -/
  pc : Byte
  /-- `fl`: bit 0 Equal, bit 1 Greater-Than, bit 2 Less-Than (R18). -/
  fl : Byte
  /-- The run status (R20). -/
  status : Status
  /-- The output events so far, oldest first (R21). -/
  out : List Event
deriving DecidableEq, Repr

/-- The state after reset, before the host loads a program (R29, R180). -/
def State.reset : State where
  mem := []
  regs := (Vector.replicate 8 0x00#8).set Config.spIndex.val Config.spReset
  pc := Config.pcReset
  fl := Config.flReset
  status := .running
  out := []

/-- Why `step` answers no next state. Both are raised by `step` alone, in the two terminal states from which "no step exists"
(R20, spec/60_exceptions.md R176, D21); no meaning raises one. DESIGN CHOICE, safe (log 10). -/
inductive Fault where
  /-- `status` is `Halted`: the run has ended with a clean exit. Raised by `step`; safe, since nothing more is claimed. -/
  | halted
  /-- `status` is `Faulted r`: the run has ended with a fatal error. Raised by `step`; safe, since nothing more is claimed. -/
  | faulted (r : FaultRecord)
deriving DecidableEq, Repr

/-- Why the model gives an instruction no meaning. -/
inductive Refusal where
  /-- The instruction has no meaning in the model yet. It would be raised by an arm of `exec`, and no arm raises it: safe. -/
  | notModelled (mnemonic : String)
deriving DecidableEq, Repr

end Sys2Proof.Machine
end

