-- ==== Sys2Proof/Machine/Ops.lean ====
section
/-! DEFINITION. The operations over memory, registers, program counter, stack, output and status that every meaning is written
over (the primitives of spec/00_scope.md R7), taking a fault (R8, spec/60_exceptions.md R170), and the dispatcher's end of an
instruction (spec/40_fetch_decode_dispatch.md R77). There is no return from a fault (R171). -/

namespace Sys2Proof.Machine

/-- The answer of a meaning. -/
abbrev Outcome := Host.Outcome State Fault Refusal

/-- What a handler does: the state it leaves, or the fault it raises before any write (R78, R82). -/
abbrev HandlerResult := Except FaultRecord State

/-! ## Memory (spec/20_memory.md R31) -/

/-- What a cell that is not listed reads as: the reset contents, 0 (R29, R36). -/
def Memory.unlisted : Byte := 0x00#8

/-- Every listed address is at least `lo`, the addresses rise strictly and stay below 256, and no listed byte is 0. -/
def Memory.wfFrom : Nat → Memory → Bool
  | _, [] => true
  | lo, (k, v) :: rest =>
    decide (lo ≤ k) && decide (k < Config.memSize) && decide (v ≠ Memory.unlisted) && Memory.wfFrom (k + 1) rest

/-- The canonical form of memory: equal memories are equal lists. -/
def Memory.wf (m : Memory) : Bool := Memory.wfFrom 0 m

/-- The byte at an address. -/
def Memory.load : Memory → Nat → Byte
  | [], _ => Memory.unlisted
  | (k, v) :: rest, a => if k = a then v else Memory.load rest a

/-- Putting a cell in front of cells with higher addresses; the unlisted value is not listed. -/
def Memory.cons (a : Nat) (v : Byte) (rest : Memory) : Memory :=
  if v = Memory.unlisted then rest else (a, v) :: rest

/-- Setting the byte at an address, keeping the canonical form. -/
def Memory.store : Memory → Nat → Byte → Memory
  | [], a, v => Memory.cons a v []
  | (k, w) :: rest, a, v =>
    if a < k then Memory.cons a v ((k, w) :: rest)
    else if a = k then Memory.cons a v rest
    else (k, w) :: Memory.store rest a v

/-- Setting consecutive bytes from an address upward; bytes that would lie above 255 have no cell and are dropped. -/
def Memory.storeBytes : Memory → Nat → List Byte → Memory
  | m, _, [] => m
  | m, a, b :: bs => if a < Config.memSize then Memory.storeBytes (Memory.store m a b) (a + 1) bs else m

/-- `MemRead(addr, 1)` (R31). The address is a byte, so it is always in range. -/
def State.readByte (s : State) (addr : Byte) : Byte := Memory.load s.mem addr.toNat

/-- `MemWrite(addr, 1, v)` (R31). -/
def State.writeByte (s : State) (addr v : Byte) : State := { s with mem := Memory.store s.mem addr.toNat v }

/-! ## Registers, program counter, flags (spec/10_state.md R11, R15, R18) -/

/-- `x[r]` (R25). -/
def State.reg (s : State) (r : RegIdx) : Byte := s.regs[r.val]

/-- `x[r] <- v` (R25). -/
def State.setReg (s : State) (r : RegIdx) (v : Byte) : State := { s with regs := s.regs.set r.val v }

/-- `pc <- t` (R7). -/
def State.setPc (s : State) (t : Byte) : State := { s with pc := t }

/-- `fl <- v` (R7). -/
def State.setFl (s : State) (v : Byte) : State := { s with fl := v }

/-- SP, the register `x[7]` (R12). -/
def State.sp (s : State) : Byte := s.reg Config.spIndex

/-- Writing SP (R12). -/
def State.setSp (s : State) (v : Byte) : State := s.setReg Config.spIndex v

/-! ## Status and output (R20, R21) -/

/-- `Emit(kind, v)` (R7): the event goes to the end of `out`. -/
def State.emit (s : State) (e : Event) : State := { s with out := s.out ++ [e] }

/-- `status <- Halted` (R145). -/
def State.halt (s : State) : State := { s with status := .halted }

/-- Taking a fault (R8, R170): `status <- Faulted(kind, info)` and nothing else; `pc` keeps the address of the instruction,
nothing is saved, control goes nowhere. -/
def State.raise (s : State) (r : FaultRecord) : State := { s with status := .faulted r }

/-! ## Stack (spec/20_memory.md R44): unchecked, addresses modulo 256 -/

/-- Decrement SP, then store at the new SP the byte `f` reads from the state with SP already decremented (R123, R137).
UNVERIFIED, unsafe: the wrap of SP at 0 is the spec's decision D3 (log 6). -/
def State.pushWith (s : State) (f : State → Byte) : State :=
  let s1 := s.setSp (s.sp - 1#8)
  s1.writeByte s1.sp (f s1)

/-- The byte at the top of the stack (R124, R138). -/
def State.stackTop (s : State) : Byte := s.readByte s.sp

/-- Increment SP (R124, R138), modulo 256 (D3, log 6). -/
def State.dropTop (s : State) : State := s.setSp (s.sp + 1#8)

/-! ## `pc`-derived addresses and the end of an instruction -/

/-- `A + k` (spec/10_state.md R17): above 255 it raises `AddressOutOfRange(A + k)`, or wraps under the other setting of
`PC_OVERFLOW` (D2, log 2). -/
def pcPlus (A : Byte) (k : Nat) : Except FaultRecord Byte :=
  if A.toNat + k ≤ 255 then .ok (BitVec.ofNat 8 (A.toNat + k))
  else
    match Config.pcOverflow with
    | .fault => .error (.addressOutOfRange (A.toNat + k))
    | .wrap => .ok (BitVec.ofNat 8 (A.toNat + k))

/-- The dispatcher's advance (R77): while the machine is still running and the opcode's PC-set bit is 0, `pc <- A + n + 1`; a
sum above 255 faults and the handler's effects stand. The advance looks at the opcode byte and at nothing else. -/
def State.advance (s : State) (op : Byte) : State :=
  if s.status = .running ∧ (decodeFields op).setsPc = false then
    match pcPlus s.pc ((decodeFields op).operandCount.toNat + 1) with
    | .ok p => s.setPc p
    | .error r => s.raise r
  else s

/-- The end of instruction `i`, begun in state `s`, whose handler gave `h`: a fault the handler raised is taken in the state
before the instruction (R78, R82), else the dispatcher advances (R77). -/
def retire (i : Instr) (s : State) (h : HandlerResult) : Outcome :=
  match h with
  | .ok t => .next (t.advance i.opcode)
  | .error r => .next (s.raise r)

end Sys2Proof.Machine
end

