-- ==== Sys2Proof/Machine/Flags.lean ====
section
/-! DEFINITION. The flags register: the three bits (spec/10_state.md R18), the compare that writes them (spec/41_alu.md R115)
and the six conditions that read them (spec/43_control_transfer.md R139). -/

namespace Sys2Proof.Machine

/-- `E`, bit 0: Equal (R18). -/
def flagE (fl : Byte) : Bool := fl.getLsbD 0

/-- `G`, bit 1: Greater-Than (R18). -/
def flagG (fl : Byte) : Bool := fl.getLsbD 1

/-- `L`, bit 2: Less-Than (R18). -/
def flagL (fl : Byte) : Bool := fl.getLsbD 2

/-- The value CMP writes to all eight bits of `fl` (R115): the unsigned comparison, one bit set. Bits 7 to 3 are 0 (D13,
log 9). -/
def compareFlags (va vb : Byte) : Byte :=
  if va.toNat = vb.toNat then 0b00000001#8
  else if va.toNat > vb.toNat then 0b00000010#8
  else 0b00000100#8

/-- The condition of JEQ (R131). The six bit tests are the spec's decision D14 (log 9). -/
def condEq (fl : Byte) : Bool := flagE fl

/-- The condition of JNE (R132). -/
def condNe (fl : Byte) : Bool := !flagE fl

/-- The condition of JGT (R133). -/
def condGt (fl : Byte) : Bool := flagG fl

/-- The condition of JGE (R134). -/
def condGe (fl : Byte) : Bool := flagG fl || flagE fl

/-- The condition of JLT (R135). -/
def condLt (fl : Byte) : Bool := flagL fl

/-- The condition of JLE (R136). -/
def condLe (fl : Byte) : Bool := flagL fl || flagE fl

end Sys2Proof.Machine
end

