-- ==== Sys2Proof/Machine/Operands.lean ====
section
/-! DEFINITION. The operand forms (spec/30_encoding.md R53 to R55): a register operand byte is checked (spec/10_state.md R14)
before the handler does anything else, the first operand before the second (D11, log 8); an immediate is the byte itself. -/

namespace Sys2Proof.Machine

/-- `Reg(b)` (R14): the register an operand byte names. Above 7 it raises `InvalidRegisterIndex(b)`, or is masked to three bits
under the other setting of `REG_INDEX_CHECK` (D4, log 3). -/
def regIndex (b : Byte) : Except FaultRecord RegIdx :=
  if h : b.toNat < 8 then .ok ⟨b.toNat, h⟩
  else
    match Config.regIndexCheck with
    | .fault => .error (.invalidRegisterIndex b)
    | .mask3 => .ok ⟨b.toNat % 8, Nat.mod_lt _ (by decide)⟩

/-- A handler with one register operand (formats F1R and F2RI). -/
def withReg (a : Byte) (k : RegIdx → HandlerResult) : HandlerResult :=
  match regIndex a with
  | .ok ra => k ra
  | .error r => .error r

/-- A handler with two register operands (format F2RR). -/
def withRegs (a b : Byte) (k : RegIdx → RegIdx → HandlerResult) : HandlerResult :=
  withReg a fun ra => withReg b fun rb => k ra rb

end Sys2Proof.Machine
end

