-- ==== Sys2Proof/Machine/Alu.lean ====
section
/-! DEFINITION. The block `alu_core` (spec/10_state.md R26) and the meanings of the 15 ALU instructions (spec/41_alu.md). -/

namespace Sys2Proof.Machine

/-- The operation the opcode selects in the ALU (R26). -/
inductive AluOp where
  | add | sub | mul | div | mod | and | or | xor | not | shl | shr | inc | dec | cmp | addi
deriving DecidableEq, Repr

/-- The outputs of the ALU (R26). -/
structure AluOut where
  /-- The result byte. -/
  result : Byte
  /-- 1 when `x[a]` is to be written. -/
  resultWe : Bool
  /-- The flags byte. -/
  flNext : Byte
  /-- 1 when `fl` is to be written. -/
  flWe : Bool
  /-- 1 for DIV or MOD with divisor 0. -/
  divZero : Bool
deriving DecidableEq, Repr

/-- The operation on mathematical integers, before the mask (R6, R101 to R116). `y` is unused by NOT, INC and DEC; CMP has no
result. Shifts use the whole count (D6, log 7); DIV is floor division (D5, log 22). -/
def aluExact (op : AluOp) (x y : Nat) : Int :=
  match op with
  | .add => (x : Int) + y
  | .sub => (x : Int) - y
  | .mul => (x : Int) * y
  | .div => ((x / y : Nat) : Int)
  | .mod => ((x % y : Nat) : Int)
  | .and => ((x &&& y : Nat) : Int)
  | .or => ((x ||| y : Nat) : Int)
  | .xor => ((x ^^^ y : Nat) : Int)
  | .not => 255 - (x : Int)
  | .shl => ((x * 2 ^ y : Nat) : Int)
  | .shr => ((x / 2 ^ y : Nat) : Int)
  | .inc => (x : Int) + 1
  | .dec => (x : Int) - 1
  | .cmp => 0
  | .addi => (x : Int) + y

/-- Whether an operation divides (R100). -/
def aluDivides (op : AluOp) : Bool := decide (op = .div ∨ op = .mod)

/-- The block `alu_core` (R26): combinational, no state. The result is the exact integer reduced modulo 256 (R101). -/
def aluCore (op : AluOp) (va vb : Byte) : AluOut :=
  let dz := aluDivides op && decide (vb = 0x00#8)
  { result := BitVec.ofInt 8 (aluExact op va.toNat vb.toNat)
    resultWe := decide (op ≠ .cmp) && !dz
    flNext := compareFlags va vb
    flWe := decide (op = .cmp)
    divZero := dz }

/-- The dispatcher's side of an ALU operation with destination `ra` and second value `vb` (R76, R100): both values are read
before anything is written, a zero divisor faults, and the write-back follows the ALU's write enables. -/
def aluApply (op : AluOp) (ra : RegIdx) (vb : Byte) (s : State) : HandlerResult :=
  let o := aluCore op (s.reg ra) vb
  if o.divZero then .error .divideByZero
  else
    let s1 := if o.flWe then s.setFl o.flNext else s
    .ok (if o.resultWe then s1.setReg ra o.result else s1)

/-- Register-register form (F2RR): `vb = x[rb]` (R100). -/
def aluRegReg (op : AluOp) (a b : Byte) (s : State) : HandlerResult :=
  withRegs a b fun ra rb => aluApply op ra (s.reg rb) s

/-- Register-immediate form (F2RI): `vb` is the operand byte itself (R100). -/
def aluRegImm (op : AluOp) (a imm : Byte) (s : State) : HandlerResult :=
  withReg a fun ra => aluApply op ra imm s

/-- One-operand form (F1R): `vb` is unused (R100). -/
def aluReg (op : AluOp) (a : Byte) (s : State) : HandlerResult :=
  withReg a fun ra => aluApply op ra 0x00#8 s

/-- ADD (R102). -/
def execAdd (a b : Byte) (s : State) : Outcome := retire (.add a b) s (aluRegReg .add a b s)

/-- SUB (R103). -/
def execSub (a b : Byte) (s : State) : Outcome := retire (.sub a b) s (aluRegReg .sub a b s)

/-- MUL (R104). -/
def execMul (a b : Byte) (s : State) : Outcome := retire (.mul a b) s (aluRegReg .mul a b s)

/-- DIV (R105). -/
def execDiv (a b : Byte) (s : State) : Outcome := retire (.div a b) s (aluRegReg .div a b s)

/-- MOD (R106). -/
def execMod (a b : Byte) (s : State) : Outcome := retire (.mod a b) s (aluRegReg .mod a b s)

/-- AND (R107). -/
def execAnd (a b : Byte) (s : State) : Outcome := retire (.and a b) s (aluRegReg .and a b s)

/-- OR (R108). -/
def execOr (a b : Byte) (s : State) : Outcome := retire (.or a b) s (aluRegReg .or a b s)

/-- XOR (R109). -/
def execXor (a b : Byte) (s : State) : Outcome := retire (.xor a b) s (aluRegReg .xor a b s)

/-- NOT (R110). -/
def execNot (a : Byte) (s : State) : Outcome := retire (.not a) s (aluReg .not a s)

/-- SHL (R111). -/
def execShl (a b : Byte) (s : State) : Outcome := retire (.shl a b) s (aluRegReg .shl a b s)

/-- SHR (R112). -/
def execShr (a b : Byte) (s : State) : Outcome := retire (.shr a b) s (aluRegReg .shr a b s)

/-- INC (R113). -/
def execInc (a : Byte) (s : State) : Outcome := retire (.inc a) s (aluReg .inc a s)

/-- DEC (R114). -/
def execDec (a : Byte) (s : State) : Outcome := retire (.dec a) s (aluReg .dec a s)

/-- CMP (R115). -/
def execCmp (a b : Byte) (s : State) : Outcome := retire (.cmp a b) s (aluRegReg .cmp a b s)

/-- ADDI (R116). -/
def execAddi (a imm : Byte) (s : State) : Outcome := retire (.addi a imm) s (aluRegImm .addi a imm s)

end Sys2Proof.Machine
end

