-- ==== Sys2Proof/Machine/Control.lean ====
section
/-! DEFINITION. The meanings of the jumps, CALL and RET (spec/43_control_transfer.md). Their opcodes have the PC-set bit, so the
handler writes `pc` and the dispatcher adds nothing (R77). -/

namespace Sys2Proof.Machine

/-- JMP (R130): `pc <- x[ra]`. -/
def execJmp (a : Byte) (s : State) : Outcome :=
  retire (.jmp a) s (withReg a fun ra => .ok (s.setPc (s.reg ra)))

/-- The common rule of the six conditional jumps (R139): the index is checked whether or not the jump is taken; not taken, the
next `pc` is `A + 2` with the check of R17. -/
def jumpIf (taken : Bool) (a : Byte) (s : State) : HandlerResult :=
  withReg a fun ra =>
    if taken then .ok (s.setPc (s.reg ra))
    else
      match pcPlus s.pc 2 with
      | .ok p => .ok (s.setPc p)
      | .error r => .error r

/-- JEQ (R131). -/
def execJeq (a : Byte) (s : State) : Outcome := retire (.jeq a) s (jumpIf (condEq s.fl) a s)

/-- JNE (R132). -/
def execJne (a : Byte) (s : State) : Outcome := retire (.jne a) s (jumpIf (condNe s.fl) a s)

/-- JGT (R133). -/
def execJgt (a : Byte) (s : State) : Outcome := retire (.jgt a) s (jumpIf (condGt s.fl) a s)

/-- JGE (R134). -/
def execJge (a : Byte) (s : State) : Outcome := retire (.jge a) s (jumpIf (condGe s.fl) a s)

/-- JLT (R135). -/
def execJlt (a : Byte) (s : State) : Outcome := retire (.jlt a) s (jumpIf (condLt s.fl) a s)

/-- JLE (R136). -/
def execJle (a : Byte) (s : State) : Outcome := retire (.jle a) s (jumpIf (condLe s.fl) a s)

/-- CALL (R137): the return address `A + 2` is checked before any write, pushed, and the target is `x[ra]` read after the
push. -/
def execCall (a : Byte) (s : State) : Outcome :=
  retire (.call a) s (withReg a fun ra =>
    match pcPlus s.pc 2 with
    | .ok back => let t := s.pushWith fun _ => back; .ok (t.setPc (t.reg ra))
    | .error r => .error r)

/-- RET (R138): `pc <- MemRead(x[7], 1)`, then SP is incremented. -/
def execRet (s : State) : Outcome :=
  retire .ret s (.ok (s.setPc s.stackTop).dropTop)

end Sys2Proof.Machine
end

