-- ==== Sys2Proof/Machine/DataStack.lean ====
section
/-! DEFINITION. The meanings of LDI, LD, ST, PUSH and POP (spec/42_data_stack.md). -/

namespace Sys2Proof.Machine

/-- LDI (R120): `x[ra] <- imm`. -/
def execLdi (a imm : Byte) (s : State) : Outcome :=
  retire (.ldi a imm) s (withReg a fun ra => .ok (s.setReg ra imm))

/-- LD (R121): `x[ra] <- MemRead(x[rb], 1)`. -/
def execLd (a b : Byte) (s : State) : Outcome :=
  retire (.ld a b) s (withRegs a b fun ra rb => .ok (s.setReg ra (s.readByte (s.reg rb))))

/-- ST (R122): `MemWrite(x[ra], 1, x[rb])`. -/
def execSt (a b : Byte) (s : State) : Outcome :=
  retire (.st a b) s (withRegs a b fun ra rb => .ok (s.writeByte (s.reg ra) (s.reg rb)))

/-- PUSH (R123): the stored byte is `x[ra]` read after the decrement of SP. -/
def execPush (a : Byte) (s : State) : Outcome :=
  retire (.push a) s (withReg a fun ra => .ok (s.pushWith fun t => t.reg ra))

/-- POP (R124): SP is read again, after the write of `x[ra]`, for the increment. -/
def execPop (a : Byte) (s : State) : Outcome :=
  retire (.pop a) s (withReg a fun ra => .ok (s.setReg ra s.stackTop).dropTop)

end Sys2Proof.Machine
end

