-- ==== Sys2Proof/Machine/System.lean ====
section
/-! DEFINITION. The meanings of HLT, NOP, PRN, PRA, INT and IRET (spec/44_system_io.md). -/

namespace Sys2Proof.Machine

/-- HLT (R145): `status <- Halted`; the dispatcher's advance is then skipped, so `pc` keeps its value (D9, log 21). -/
def execHlt (s : State) : Outcome := retire .hlt s (.ok s.halt)

/-- NOP (R146). -/
def execNop (s : State) : Outcome := retire .nop s (.ok s)

/-- PRN (R147): the event `(Num, x[ra])`. -/
def execPrn (a : Byte) (s : State) : Outcome :=
  retire (.prn a) s (withReg a fun ra => .ok (s.emit (.num (s.reg ra))))

/-- PRA (R148): the event `(Char, x[ra])`. -/
def execPra (a : Byte) (s : State) : Outcome :=
  retire (.pra a) s (withReg a fun ra => .ok (s.emit (.char (s.reg ra))))

/-- The empty body of INT and IRET, instructions of `len` bytes (R149, R150): no state changes. Under the other setting of
`INERT_PC` the body moves `pc` past the instruction (D10, log 4). -/
def inertBody (len : Nat) (s : State) : HandlerResult :=
  match Config.inertPc with
  | .stay => .ok s
  | .advance =>
    match pcPlus s.pc len with
    | .ok p => .ok (s.setPc p)
    | .error r => .error r

/-- INT (R149): its operand byte is neither checked nor used. -/
def execInt (a : Byte) (s : State) : Outcome := retire (.int a) s (inertBody 2 s)

/-- IRET (R150). -/
def execIret (s : State) : Outcome := retire .iret s (inertBody 1 s)

end Sys2Proof.Machine
end

