-- ==== Sys2Proof/Machine/Fetch.lean ====
section
/-! DEFINITION. Fetching an instruction (spec/40_fetch_decode_dispatch.md R73 to R75) and placing one for the fetch. -/

namespace Sys2Proof.Machine

/-- The bytes the fetch can reach: the cell at `pc` and the two after it, as far as `pc`-derived addresses go (R17, R37). The
decoder takes from them the operand bytes the opcode asks for; that the others are looked at changes nothing (R35). DEDUCED,
safe (log 12). -/
def State.fetchBytes (s : State) : List Byte :=
  s.readByte s.pc ::
    match pcPlus s.pc 1 with
    | .error _ => []
    | .ok p1 =>
      s.readByte p1 ::
        match pcPlus s.pc 2 with
        | .error _ => []
        | .ok p2 => [s.readByte p2]

/-- Fetch, decode and recognise the instruction at `pc` (R72): an unknown opcode raises `InvalidOpcode` before any operand is
asked for (R74), a missing operand byte `k` raises `AddressOutOfRange(A + k)` (R75). -/
def State.fetchInstr (s : State) : Except FaultRecord Instr :=
  match decode s.fetchBytes with
  | .ok (i, _) => .ok i
  | .error (.invalidOpcode op) => .error (.invalidOpcode op)
  | .error (.missingByte k) => .error (.addressOutOfRange (s.pc.toNat + k))

/-- Putting bytes at `pc` upward, in a machine that is running (log 14). -/
def State.placeAtPc (s : State) (bs : List Byte) : State :=
  { s with mem := Memory.storeBytes s.mem s.pc.toNat bs, status := .running }

end Sys2Proof.Machine
end

