-- ==== Sys2Proof/Machine/Step.lean ====
section
/-! DEFINITION. One step of the machine (spec/40_fetch_decode_dispatch.md R72). -/

namespace Sys2Proof.Machine

/-- The instruction cycle (R72). A fault at fetch is taken like any other (R170). From `Halted` and `Faulted` no step exists
(R20, R176, log 10). -/
def step (s : State) : Host.Outcome State Fault Refusal :=
  match s.status with
  | .running =>
    match s.fetchInstr with
    | .ok i => exec i s
    | .error r => .next (s.raise r)
  | .halted => .fault .halted
  | .faulted r => .fault (.faulted r)

/-- `s` with the instruction of an opcode-table word stored where the next step fetches: at `pc` upward. The step also needs
the status `Running`, which it sets. The bytes fit when `pc` is at most 253 (log 14). -/
def State.withFetchWord (s : State) (nbits w : Nat) : State := s.placeAtPc (tableWordBytes nbits w)

end Sys2Proof.Machine
end

