-- ==== Sys2Proof/Machine/Launch.lean ====
section
/-! DEFINITION. The host's side of the core: the reset input (spec/70_reset_and_hazards.md R180), load and launch (R182), and
the exit code of the end of a run (spec/60_exceptions.md R169). -/

namespace Sys2Proof.Machine

/-- The reset input (R180): nothing survives it, whatever the state was. -/
def State.assertReset (_ : State) : State := State.reset

/-- Load and launch (R182): the reset state with the program image at address 0 upward. An image longer than memory is refused
by the host, and the core never sees it (D18, log 19). -/
def State.launch (image : List Byte) : Option State :=
  if image.length ≤ Config.memSize then
    some { State.reset with mem := Memory.storeBytes State.reset.mem Config.loadBase image }
  else none

/-- The exit code a host makes of the end of a run; a run that has not ended has none (R169; the code of the two faults the
spec names is D17, log 20). -/
def Status.exitCode : Status → Option Nat
  | .running => none
  | .halted => some 0
  | .faulted (.invalidOpcode _) => some 1
  | .faulted .divideByZero => some 1
  | .faulted (.addressOutOfRange _) => some 1
  | .faulted (.invalidRegisterIndex _) => some 1

end Sys2Proof.Machine
end

