-- ==== Sys2Proof/Safety.lean ====
section
/-! DEFINITION. The invariant of the machine's states and what a safe run is, in the terms the statements use. -/

namespace Sys2Proof.Machine

/-- The only values `fl` ever holds (spec/10_state.md R18). -/
def flLegal (fl : Byte) : Bool :=
  decide (fl = 0b00000000#8 ∨ fl = 0b00000001#8 ∨ fl = 0b00000010#8 ∨ fl = 0b00000100#8)

/-- The records a fault can leave (spec/60_exceptions.md R160 to R164): an opcode byte that is no instruction's, an address that
is always 256, a register byte above 7. -/
def FaultRecord.legal : FaultRecord → Bool
  | .invalidOpcode op => (recognise op).isNone
  | .divideByZero => true
  | .addressOutOfRange addr => decide (addr = 256)
  | .invalidRegisterIndex b => decide (7 < b.toNat)

/-- The statuses a run can have. -/
def Status.legal : Status → Bool
  | .running => true
  | .halted => true
  | .faulted r => r.legal

/-- The invariant: memory is in canonical form, `fl` holds one of its four values, and a fault's record is one the spec
gives. -/
structure State.Inv (s : State) : Prop where
  /-- The memory list is canonical. -/
  memWf : Memory.wf s.mem = true
  /-- `fl` is one of the four values of R18. -/
  flOk : flLegal s.fl = true
  /-- A recorded fault is one of R160 to R164. -/
  statusOk : s.status.legal = true

/-- A state is terminal when it is halted or faulted (R20). -/
def State.terminal (s : State) : Bool := decide (s.status ≠ .running)

/-- The run has ended in no fatal error (R170: "a claim about a run must take "status is not Faulted" as a premise or
conclusion"). -/
def State.unfaulted (s : State) : Bool :=
  match s.status with
  | .faulted _ => false
  | .running => true
  | .halted => true

/-- A run from `s` is safe for `k` steps: no state it reaches within them is faulted. It may halt early. -/
def SafeFor (k : Nat) (s : State) : Prop :=
  ∀ j ≤ k, ∀ t : State, Host.Core.run core j s = .next t → t.unfaulted = true

end Sys2Proof.Machine
end

