-- ==== Sys2Proof/Certificates/Slice0/Obligations.lean ====
section
/-! DEFINITION. The statements for the provers. An expected next state is written out as a record, with the fields that change
named; what is not named is unchanged, and that is part of the statement. A docstring names the rule of spec/ it formalises, and
where a clause rests on one of the spec's own decisions D<n>, that decision and the log entry. -/

open Sys2Proof Sys2Proof.Machine

/-- The decoder cuts the opcode byte into its four fields. R70: the fields are cut from the byte by bit masks alone, and
together they are the whole byte. -/
def Obligations.DecoderCutsOpcodeFields : Prop :=
  (∀ op : Byte,
    (decodeFields op).operandCount.toNat = op.toNat / 64 ∧
    ((decodeFields op).isAlu = true ↔ op.toNat / 32 % 2 = 1) ∧
    ((decodeFields op).setsPc = true ↔ op.toNat / 16 % 2 = 1) ∧
    (decodeFields op).id.toNat = op.toNat % 16 ∧
    op.toNat = (decodeFields op).operandCount.toNat * 64 + (decodeFields op).isAlu.toNat * 32 +
      (decodeFields op).setsPc.toNat * 16 + (decodeFields op).id.toNat) ∧
  decodeFields 0xA0#8 = ⟨2#2, true, false, 0b0000#4⟩ ∧
  decodeFields 0x55#8 = ⟨1#2, false, true, 0b0101#4⟩

/-- The length of an instruction is 1 + op[7:6], for the operand fetch and for the advance. R52: the length is 1 + op[7:6],
which fixes how many operand bytes are read and how far `pc` advances. -/
def Obligations.LengthComesFromOpcodeBits : Prop :=
  (∀ (bs : List Byte) (i : Instr) (rest : List Byte), decode bs = .ok (i, rest) →
    ∃ op operands, bs = op :: (operands ++ rest) ∧ operands.length = (decodeFields op).operandCount.toNat) ∧
  (∀ (s t : State), (decodeFields (s.readByte s.pc)).setsPc = false → step s = .next t → t.status = .running →
    t.pc.toNat = s.pc.toNat + ((decodeFields (s.readByte s.pc)).operandCount.toNat + 1))

/-- Decode and encode agree, in both directions, for all 35 instructions and all operand bytes. R50, R53, R56: no bit of an
encoding is dropped, and no two encodings are confused. The numeric opcode values are the spec's own decisions D7 and D8 (log
1). -/
def Obligations.DecodeReadsExactlyTheEncoding : Prop :=
  ∀ (bs : List Byte) (i : Instr) (rest : List Byte), decode bs = .ok (i, rest) ↔ bs = encode i ++ rest

/-- Every byte that is no instruction's opcode is rejected by name, and there are 221 of them. R59: 221 invalid bytes,
rejected before any operand byte is looked at (D11, log 8). The opcode values are D7 and D8 (log 1). -/
def Obligations.UnknownOpcodesAreRejected : Prop :=
  (∀ (op : Byte) (rest : List Byte), decode (op :: rest) = .error (.invalidOpcode op) ↔ ∀ i : Instr, i.opcode ≠ op) ∧
  ((List.range 256).filter fun n => (recognise (BitVec.ofNat 8 n)).isNone).length = 221

/-- Words written out from the opcode map decode to the instruction they stand for. R56: a few words of each family, written
out from the opcode map (values D7 and D8, log 1). -/
def Obligations.SampleWordsDecode : Prop :=
  decodeTableWord 8 0x00 = some .nop ∧
  decodeTableWord 8 0x01 = some .hlt ∧
  decodeTableWord 16 0x0745 = some (.push 0x07#8) ∧
  decodeTableWord 16 0x0150 = some (.call 0x01#8) ∧
  decodeTableWord 16 0x0255 = some (.jeq 0x02#8) ∧
  decodeTableWord 16 0x0065 = some (.inc 0x00#8) ∧
  decodeTableWord 24 0x080082 = some (.ldi 0x00#8 0x08#8) ∧
  decodeTableWord 24 0x000284 = some (.st 0x02#8 0x00#8) ∧
  decodeTableWord 24 0x0100A0 = some (.add 0x00#8 0x01#8) ∧
  decodeTableWord 24 0x0201A7 = some (.cmp 0x01#8 0x02#8) ∧
  decodeTableWord 24 0x0900AE = some (.addi 0x00#8 0x09#8) ∧
  decodeTableWord 16 0x0047 = some (.prn 0x00#8) ∧
  decodeTableWord 16 0xFF52 = some (.int 0xFF#8) ∧
  decodeTableWord 8 0xFF = none

/-- A step runs the instruction whose bytes lie at pc. R72, R73, R75: the step fetches at `pc`, decodes, and runs the handler
and the advance, which are `exec`. -/
def Obligations.StepRunsInstructionAtPc : Prop :=
  (∀ (s : State) (i : Instr), s.status = .running →
    (∀ (k : Nat) (x : Byte), (encode i)[k]? = some x → s.pc.toNat + k ≤ 255 ∧ s.readByte (s.pc + BitVec.ofNat 8 k) = x) →
    step s = exec i s) ∧
  (∀ (s : State) (i : Instr) (rest : List Byte), s.status = .running → decode s.fetchBytes = .ok (i, rest) →
    step s = exec i s)

/-- A byte at pc that is no opcode raises InvalidOpcode with that byte, and only the status changes. R161: raised in the step
frame, whatever follows the byte; no state other than `status` changes. -/
def Obligations.StepRaisesInvalidOpcode : Prop :=
  ∀ s : State, s.status = .running → (∀ i : Instr, i.opcode ≠ s.readByte s.pc) →
    step s = .next { s with status := .faulted (.invalidOpcode (s.readByte s.pc)) } ∧
    Status.exitCode (.faulted (.invalidOpcode (s.readByte s.pc))) = some 1

/-- An operand byte beyond address 255 raises AddressOutOfRange(256) before any effect. R75, R37: the spec's own decision D2
(log 2); it comes after recognition and before the register checks (D11, log 8). -/
def Obligations.StepRaisesOperandFetchFault : Prop :=
  ∀ (s : State) (i : Instr), s.status = .running → s.readByte s.pc = i.opcode →
    255 < s.pc.toNat + i.operandBytes.length →
    step s = .next { s with status := .faulted (.addressOutOfRange 256) }

/-- An instruction placed at pc is the one the next step runs. R73, R182: the bytes stored at `pc` are the bytes fetched.
`withFetchWord` is the model's own operation (log 14). -/
def Obligations.StepRunsPlacedWord : Prop :=
  ∀ (s : State) (nbits w : Nat) (i : Instr), Memory.wf s.mem = true → s.pc.toNat ≤ 253 →
    decodeTableWord nbits w = some i → step (s.withFetchWord nbits w) = exec i (s.withFetchWord nbits w)

/-- A fault is sticky and total until reset. R176 and R20: there is no partial fault state with the run continuing, and
nothing during a run clears a fault. That no step exists from it is the spec's own decision D21; that the run then answers
the outcome `fault` is the model's own choice (log 10). -/
def Obligations.FaultIsSticky : Prop :=
  (∀ (s : State) (r : FaultRecord), s.status = .faulted r →
    (∀ t : State, step s ≠ .next t) ∧
    (∀ n : Nat, Host.Core.run core (n + 1) s = .fault (.faulted r)) ∧
    s.assertReset.status = .running)

/-- ADD writes the sum modulo 256. R102: no flag changes, the carry is lost. -/
def Obligations.AddResult : Prop :=
  ∀ (s : State) (ra rb : RegIdx), s.status = .running → s.pc.toNat + 3 ≤ 255 →
    exec (.add (regByte ra) (regByte rb)) s =
      .next { s with regs := s.regs.set ra.val (BitVec.ofNat 8 ((s.reg ra).toNat + (s.reg rb).toNat)), pc := s.pc + 3#8 }

/-- SUB writes the difference modulo 256. R103: a negative difference wraps to 256 plus it; no borrow is recorded. -/
def Obligations.SubResult : Prop :=
  ∀ (s : State) (ra rb : RegIdx), s.status = .running → s.pc.toNat + 3 ≤ 255 →
    exec (.sub (regByte ra) (regByte rb)) s =
      .next { s with regs := s.regs.set ra.val (BitVec.ofNat 8 ((s.reg ra).toNat + 256 - (s.reg rb).toNat)), pc := s.pc + 3#8 }

/-- MUL writes the low byte of the product. R104: the high byte is lost. -/
def Obligations.MulResult : Prop :=
  ∀ (s : State) (ra rb : RegIdx), s.status = .running → s.pc.toNat + 3 ≤ 255 →
    exec (.mul (regByte ra) (regByte rb)) s =
      .next { s with regs := s.regs.set ra.val (BitVec.ofNat 8 ((s.reg ra).toNat * (s.reg rb).toNat)), pc := s.pc + 3#8 }

/-- DIV writes the floor quotient, or faults on a zero divisor. R105, R162: the destination is not mutated by the fault.
Floor is the spec's decision D5 (log 22), `pc` at a fault D12 (log 8). -/
def Obligations.DivResult : Prop :=
  ∀ (s : State) (ra rb : RegIdx), s.status = .running →
    (s.reg rb = 0x00#8 →
      exec (.div (regByte ra) (regByte rb)) s = .next { s with status := .faulted .divideByZero }) ∧
    (s.reg rb ≠ 0x00#8 → s.pc.toNat + 3 ≤ 255 →
      exec (.div (regByte ra) (regByte rb)) s =
        .next { s with regs := s.regs.set ra.val (BitVec.ofNat 8 ((s.reg ra).toNat / (s.reg rb).toNat)), pc := s.pc + 3#8 })

/-- MOD writes the remainder, or faults on a zero divisor. R106, R162: the destination is not mutated by the fault; `pc` at a
fault is D12 (log 8). -/
def Obligations.ModResult : Prop :=
  ∀ (s : State) (ra rb : RegIdx), s.status = .running →
    (s.reg rb = 0x00#8 →
      exec (.mod (regByte ra) (regByte rb)) s = .next { s with status := .faulted .divideByZero }) ∧
    (s.reg rb ≠ 0x00#8 → s.pc.toNat + 3 ≤ 255 →
      exec (.mod (regByte ra) (regByte rb)) s =
        .next { s with regs := s.regs.set ra.val (BitVec.ofNat 8 ((s.reg ra).toNat % (s.reg rb).toNat)), pc := s.pc + 3#8 })

/-- AND, OR and XOR write the bitwise result. R107, R108, R109. -/
def Obligations.BitwiseResults : Prop :=
  ∀ (s : State) (ra rb : RegIdx), s.status = .running → s.pc.toNat + 3 ≤ 255 →
    exec (.and (regByte ra) (regByte rb)) s =
      .next { s with regs := s.regs.set ra.val (s.reg ra &&& s.reg rb), pc := s.pc + 3#8 } ∧
    exec (.or (regByte ra) (regByte rb)) s =
      .next { s with regs := s.regs.set ra.val (s.reg ra ||| s.reg rb), pc := s.pc + 3#8 } ∧
    exec (.xor (regByte ra) (regByte rb)) s =
      .next { s with regs := s.regs.set ra.val (s.reg ra ^^^ s.reg rb), pc := s.pc + 3#8 }

/-- NOT writes the complement of the byte. R110. -/
def Obligations.NotResult : Prop :=
  ∀ (s : State) (ra : RegIdx), s.status = .running → s.pc.toNat + 2 ≤ 255 →
    exec (.not (regByte ra)) s = .next { s with regs := s.regs.set ra.val (~~~(s.reg ra)), pc := s.pc + 2#8 } ∧
    (~~~(s.reg ra)).toNat = 255 - (s.reg ra).toNat

/-- SHL shifts left by the whole count; 8 or more gives 0. R111: the spec's own decision D6 (log 7). -/
def Obligations.ShlResult : Prop :=
  ∀ (s : State) (ra rb : RegIdx), s.status = .running → s.pc.toNat + 3 ≤ 255 →
    exec (.shl (regByte ra) (regByte rb)) s =
      .next { s with
        regs := s.regs.set ra.val (if (s.reg rb).toNat < 8 then s.reg ra <<< (s.reg rb).toNat else 0x00#8)
        pc := s.pc + 3#8 }

/-- SHR shifts right logically by the whole count; 8 or more gives 0. R112: the spec's own decision D6 (log 7). -/
def Obligations.ShrResult : Prop :=
  ∀ (s : State) (ra rb : RegIdx), s.status = .running → s.pc.toNat + 3 ≤ 255 →
    exec (.shr (regByte ra) (regByte rb)) s =
      .next { s with
        regs := s.regs.set ra.val (if (s.reg rb).toNat < 8 then s.reg ra >>> (s.reg rb).toNat else 0x00#8)
        pc := s.pc + 3#8 }

/-- INC and DEC add and subtract one modulo 256. R113, R114: 255 becomes 0 and 0 becomes 255. -/
def Obligations.IncDecResults : Prop :=
  ∀ (s : State) (ra : RegIdx), s.status = .running → s.pc.toNat + 2 ≤ 255 →
    exec (.inc (regByte ra)) s =
      .next { s with regs := s.regs.set ra.val (BitVec.ofNat 8 ((s.reg ra).toNat + 1)), pc := s.pc + 2#8 } ∧
    exec (.dec (regByte ra)) s =
      .next { s with regs := s.regs.set ra.val (BitVec.ofNat 8 ((s.reg ra).toNat + 255)), pc := s.pc + 2#8 }

/-- CMP writes all of fl with the one bit of the unsigned comparison. R115; bits 7 to 3 are the spec's own decision D13 (log
9). -/
def Obligations.CmpResult : Prop :=
  ∀ (s : State) (ra rb : RegIdx), s.status = .running → s.pc.toNat + 3 ≤ 255 →
    exec (.cmp (regByte ra) (regByte rb)) s =
      .next { s with
        fl := if (s.reg ra).toNat = (s.reg rb).toNat then 0b001#8
          else if (s.reg rb).toNat < (s.reg ra).toNat then 0b010#8 else 0b100#8
        pc := s.pc + 3#8 }

/-- ADDI adds the operand byte itself, whatever byte it is. R116: the immediate is not a register index and is not checked as
one. -/
def Obligations.AddiResult : Prop :=
  ∀ (s : State) (ra : RegIdx) (imm : Byte), s.status = .running → s.pc.toNat + 3 ≤ 255 →
    exec (.addi (regByte ra) imm) s =
      .next { s with regs := s.regs.set ra.val (BitVec.ofNat 8 ((s.reg ra).toNat + imm.toNat)), pc := s.pc + 3#8 }

/-- LDI writes the operand byte to the register. R120. -/
def Obligations.LdiResult : Prop :=
  ∀ (s : State) (ra : RegIdx) (imm : Byte), s.status = .running → s.pc.toNat + 3 ≤ 255 →
    exec (.ldi (regByte ra) imm) s = .next { s with regs := s.regs.set ra.val imm, pc := s.pc + 3#8 }

/-- LD loads the byte at the address in the second register. R121: the address is the old value of `x[rb]`, also when `ra =
rb`. -/
def Obligations.LdResult : Prop :=
  ∀ (s : State) (ra rb : RegIdx), s.status = .running → s.pc.toNat + 3 ≤ 255 →
    exec (.ld (regByte ra) (regByte rb)) s =
      .next { s with regs := s.regs.set ra.val (s.readByte (s.reg rb)), pc := s.pc + 3#8 }

/-- ST stores the second register at the address in the first. R122. -/
def Obligations.StResult : Prop :=
  ∀ (s : State) (ra rb : RegIdx), s.status = .running → s.pc.toNat + 3 ≤ 255 →
    exec (.st (regByte ra) (regByte rb)) s =
      .next { s with mem := Memory.store s.mem (s.reg ra).toNat (s.reg rb), pc := s.pc + 3#8 }

/-- PUSH decrements SP modulo 256, then stores the register at the new SP. R123: no bound is checked; the wrap of SP is the
spec's own decision D3 (log 6). -/
def Obligations.PushResult : Prop :=
  ∀ (s : State) (ra : RegIdx), s.status = .running → s.pc.toNat + 2 ≤ 255 →
    exec (.push (regByte ra)) s =
      .next { s with
        regs := s.regs.set 7 (s.reg 7 - 1#8)
        mem := Memory.store s.mem (s.reg 7 - 1#8).toNat (if ra = 7 then s.reg 7 - 1#8 else s.reg ra)
        pc := s.pc + 2#8 }

/-- POP loads the byte at SP, then increments x[7] modulo 256. R124: SP is read again after the load; the wrap is the spec's
own decision D3 (log 6). -/
def Obligations.PopResult : Prop :=
  ∀ (s : State) (ra : RegIdx), s.status = .running → s.pc.toNat + 2 ≤ 255 →
    (ra ≠ 7 → exec (.pop (regByte ra)) s =
      .next { s with regs := (s.regs.set ra.val (s.readByte (s.reg 7))).set 7 (s.reg 7 + 1#8), pc := s.pc + 2#8 }) ∧
    (ra = 7 → exec (.pop (regByte ra)) s =
      .next { s with regs := s.regs.set 7 (s.readByte (s.reg 7) + 1#8), pc := s.pc + 2#8 })

/-- JMP sets pc to the register, wherever it stands. R130: any byte is a legal target. -/
def Obligations.JmpResult : Prop :=
  ∀ (s : State) (ra : RegIdx), s.status = .running →
    exec (.jmp (regByte ra)) s = .next { s with pc := s.reg ra }

/-- JEQ jumps on E, JNE on not E. R131, R132, R139; the bit tests are D14 (log 9). -/
def Obligations.JeqJneResults : Prop :=
  ∀ (s : State) (ra : RegIdx), s.status = .running →
    ∀ p ∈ [(Instr.jeq (regByte ra), s.fl.getLsbD 0), (Instr.jne (regByte ra), !s.fl.getLsbD 0)],
      (p.2 = true → exec p.1 s = .next { s with pc := s.reg ra }) ∧
      (p.2 = false → s.pc.toNat + 2 ≤ 255 → exec p.1 s = .next { s with pc := s.pc + 2#8 }) ∧
      (p.2 = false → 255 < s.pc.toNat + 2 →
        exec p.1 s = .next { s with status := .faulted (.addressOutOfRange (s.pc.toNat + 2)) })

/-- JGT jumps on G, JLT on L. R133, R135, R139; the bit tests are D14 (log 9). -/
def Obligations.JgtJltResults : Prop :=
  ∀ (s : State) (ra : RegIdx), s.status = .running →
    ∀ p ∈ [(Instr.jgt (regByte ra), s.fl.getLsbD 1), (Instr.jlt (regByte ra), s.fl.getLsbD 2)],
      (p.2 = true → exec p.1 s = .next { s with pc := s.reg ra }) ∧
      (p.2 = false → s.pc.toNat + 2 ≤ 255 → exec p.1 s = .next { s with pc := s.pc + 2#8 }) ∧
      (p.2 = false → 255 < s.pc.toNat + 2 →
        exec p.1 s = .next { s with status := .faulted (.addressOutOfRange (s.pc.toNat + 2)) })

/-- JGE jumps on G or E, JLE on L or E. R134, R136, R139; the bit tests are D14 (log 9). -/
def Obligations.JgeJleResults : Prop :=
  ∀ (s : State) (ra : RegIdx), s.status = .running →
    ∀ p ∈ [(Instr.jge (regByte ra), s.fl.getLsbD 1 || s.fl.getLsbD 0), (Instr.jle (regByte ra), s.fl.getLsbD 2 || s.fl.getLsbD 0)],
      (p.2 = true → exec p.1 s = .next { s with pc := s.reg ra }) ∧
      (p.2 = false → s.pc.toNat + 2 ≤ 255 → exec p.1 s = .next { s with pc := s.pc + 2#8 }) ∧
      (p.2 = false → 255 < s.pc.toNat + 2 →
        exec p.1 s = .next { s with status := .faulted (.addressOutOfRange (s.pc.toNat + 2)) })

/-- CALL pushes pc + 2 and jumps; a return address above 255 faults before any write. R137: the return address is one byte;
its check is D2 (log 2), the wrap of SP D3 (log 6). -/
def Obligations.CallResult : Prop :=
  ∀ (s : State) (ra : RegIdx), s.status = .running →
    (s.pc.toNat + 2 ≤ 255 → exec (.call (regByte ra)) s =
      .next { s with
        regs := s.regs.set 7 (s.reg 7 - 1#8)
        mem := Memory.store s.mem (s.reg 7 - 1#8).toNat (s.pc + 2#8)
        pc := if ra = 7 then s.reg 7 - 1#8 else s.reg ra }) ∧
    (255 < s.pc.toNat + 2 →
      exec (.call (regByte ra)) s = .next { s with status := .faulted (.addressOutOfRange (s.pc.toNat + 2)) })

/-- RET pops the byte at SP into pc and never faults. R138: whatever byte is at SP becomes `pc`. -/
def Obligations.RetResult : Prop :=
  ∀ s : State, s.status = .running →
    exec .ret s = .next { s with regs := s.regs.set 7 (s.reg 7 + 1#8), pc := s.readByte (s.reg 7) }

/-- HLT sets the status to Halted and changes nothing else; from Halted no step is taken. R145, R20: `pc` after HLT is D9
(log 21), the terminal state D21 (log 10). -/
def Obligations.HltHalts : Prop :=
  (∀ s : State, exec .hlt s = .next { s with status := .halted }) ∧
  (∀ s : State, s.status = .halted → ∀ t : State, step s ≠ .next t)

/-- NOP only advances pc; at address 255 the advance faults. R146; the fault at the top is D2 (log 2). -/
def Obligations.NopResult : Prop :=
  ∀ s : State, s.status = .running →
    (s.pc.toNat ≤ 254 → exec .nop s = .next { s with pc := s.pc + 1#8 }) ∧
    (s.pc.toNat = 255 → exec .nop s = .next { s with status := .faulted (.addressOutOfRange 256) })

/-- PRN and PRA append the register to the output. R147, R148; the event list is D16 (log 15). -/
def Obligations.PrnPraResults : Prop :=
  ∀ (s : State) (ra : RegIdx), s.status = .running → s.pc.toNat + 2 ≤ 255 →
    exec (.prn (regByte ra)) s = .next { s with out := s.out ++ [.num (s.reg ra)], pc := s.pc + 2#8 } ∧
    exec (.pra (regByte ra)) s = .next { s with out := s.out ++ [.char (s.reg ra)], pc := s.pc + 2#8 }

/-- INT and IRET leave every piece of state, pc included, as it was. R149, R150: empty bodies and no advance; the spec's own
decision D10 (log 4). -/
def Obligations.IntIretChangeNothing : Prop :=
  (∀ (s : State) (a : Byte), exec (.int a) s = .next s) ∧ (∀ s : State, exec .iret s = .next s)

/-- The first register operand byte above 7 raises InvalidRegisterIndex before any effect, for every instruction. R14, R164,
R167: the spec's own decisions D4 (log 3) and D11 (log 8). -/
def Obligations.BadRegisterOperandFaults : Prop :=
  ∀ (s : State) (i : Instr) (b : Byte), i.regOperands.find? (fun x => decide (7 < x.toNat)) = some b →
    exec i s = .next { s with status := .faulted (.invalidRegisterIndex b) }

/-- A fault at the sequential advance leaves the handler's effects in place. R77, R82: the spec's own decisions D2 (log 2)
and D12 (log 8). -/
def Obligations.AdvanceFaultKeepsEffects : Prop :=
  ∀ (s t : State) (i : Instr), s.status = .running → (decodeFields i.opcode).setsPc = false →
    exec i { s with pc := 0x00#8 } = .next t → t.status = .running → 255 < s.pc.toNat + (encode i).length →
    exec i s =
      .next { t with pc := s.pc, status := .faulted (.addressOutOfRange (s.pc.toNat + (encode i).length)) }

/-- Overflow, stack wrap, large shift counts, stores into the program, jumps anywhere, INT and IRET are no faults. R165: none
of the listed things is a fault; each has a defined result in its rule. -/
def Obligations.WellFormedInstructionsDoNotFault : Prop :=
  ∀ (s : State) (i : Instr), s.status = .running → i.wellFormed = true → s.pc.toNat + (encode i).length ≤ 255 →
    (∀ (a : Byte) (rb : RegIdx), i = .div a (regByte rb) ∨ i = .mod a (regByte rb) → s.reg rb ≠ 0x00#8) →
    ∃ t : State, exec i s = .next t ∧ ∀ r : FaultRecord, t.status ≠ .faulted r

/-- Which registers an instruction leaves unchanged. R25, R32, R100, R126: no instruction writes a register its rule does not
name. -/
def Obligations.RegisterFrame : Prop :=
  ∀ (a b : Byte) (s t : State) (q : RegIdx),
    (∀ i ∈ [Instr.nop, .hlt, .iret, .int a, .prn a, .pra a, .jmp a, .jeq a, .jne a, .jgt a, .jlt a, .jle a, .jge a,
        .st a b, .cmp a b], exec i s = .next t → t.reg q = s.reg q) ∧
    (∀ i ∈ [Instr.add a b, .sub a b, .mul a b, .div a b, .mod a b, .and a b, .or a b, .xor a b, .shl a b, .shr a b,
        .addi a b, .not a, .inc a, .dec a, .ldi a b, .ld a b],
      exec i s = .next t → a ≠ regByte q → t.reg q = s.reg q) ∧
    (∀ i ∈ [Instr.push a, .call a, .ret], exec i s = .next t → q ≠ 7 → t.reg q = s.reg q) ∧
    (exec (.pop a) s = .next t → q ≠ 7 → a ≠ regByte q → t.reg q = s.reg q)

/-- Which bytes of memory an instruction leaves unchanged. R31, R32: only ST, PUSH and CALL write memory, one byte each, at
the address their rule computes. -/
def Obligations.MemoryFrame : Prop :=
  (∀ (i : Instr) (s t : State) (x : Byte), (∀ a b : Byte, i ≠ .st a b ∧ i ≠ .push a ∧ i ≠ .call a) →
    exec i s = .next t → t.readByte x = s.readByte x) ∧
  (∀ (a b : Byte) (s t : State) (x : Byte), exec (.st a b) s = .next t →
    (∀ ra : RegIdx, a = regByte ra → x ≠ s.reg ra) → t.readByte x = s.readByte x) ∧
  (∀ (a : Byte) (s t : State) (x : Byte), exec (.push a) s = .next t ∨ exec (.call a) s = .next t →
    x ≠ s.reg 7 - 1#8 → t.readByte x = s.readByte x)

/-- The stored byte is read back, and the next fetch sees it. R31, R39, R42, R123, R137. -/
def Obligations.StoredByteReadsBack : Prop :=
  ∀ (s t : State) (ra rb : RegIdx), s.status = .running → Memory.wf s.mem = true →
    (s.pc.toNat + 3 ≤ 255 → exec (.st (regByte ra) (regByte rb)) s = .next t →
      t.readByte (s.reg ra) = s.reg rb ∧ (t.pc = s.reg ra → t.fetchBytes.head? = some (s.reg rb))) ∧
    (s.pc.toNat + 2 ≤ 255 → exec (.push (regByte ra)) s = .next t →
      t.readByte (s.reg 7 - 1#8) = (if ra = 7 then s.reg 7 - 1#8 else s.reg ra) ∧
      (t.pc = s.reg 7 - 1#8 → t.fetchBytes.head? = some (if ra = 7 then s.reg 7 - 1#8 else s.reg ra))) ∧
    (s.pc.toNat + 2 ≤ 255 → exec (.call (regByte ra)) s = .next t →
      t.readByte (s.reg 7 - 1#8) = s.pc + 2#8 ∧ (t.pc = s.reg 7 - 1#8 → t.fetchBytes.head? = some (s.pc + 2#8)))

/-- fl is written only by CMP and read only by the conditional jumps. R19: who writes `fl`, who reads it, and that a compare
sets exactly one bit. -/
def Obligations.FlagsAreSetOnlyByCompare : Prop :=
  (∀ (i : Instr) (s t : State), (∀ a b : Byte, i ≠ .cmp a b) → exec i s = .next t → t.fl = s.fl) ∧
  (∀ (ra rb : RegIdx) (s t : State) (f : Byte), exec (.cmp (regByte ra) (regByte rb)) s = .next t →
    (t.fl = 0b001#8 ∨ t.fl = 0b010#8 ∨ t.fl = 0b100#8) ∧
    exec (.cmp (regByte ra) (regByte rb)) { s with fl := f } = .next t) ∧
  (∀ (i : Instr) (s t : State) (f : Byte), (∀ a b : Byte, i ≠ .cmp a b ∧ i ≠ .jeq a ∧ i ≠ .jne a ∧ i ≠ .jgt a ∧ i ≠ .jge a ∧
      i ≠ .jlt a ∧ i ≠ .jle a) → exec i s = .next t → exec i { s with fl := f } = .next { t with fl := f }) ∧
  State.reset.fl = 0x00#8

/-- Of the ALU instructions only CMP writes fl, and CMP writes no register. R118. -/
def Obligations.OnlyCmpAmongAluWritesFlags : Prop :=
  (∀ (a b : Byte) (s t : State), ∀ i ∈ [Instr.add a b, .sub a b, .mul a b, .div a b, .mod a b, .and a b, .or a b, .xor a b,
      .not a, .shl a b, .shr a b, .inc a, .dec a, .addi a b], exec i s = .next t → t.fl = s.fl) ∧
  (∀ (ra rb : RegIdx) (s t : State), exec (.cmp (regByte ra) (regByte rb)) s = .next t →
    t.fl = if (s.reg ra).toNat = (s.reg rb).toNat then 0b001#8
      else if (s.reg rb).toNat < (s.reg ra).toNat then 0b010#8 else 0b100#8) ∧
  (∀ (a b : Byte) (s t : State) (q : RegIdx), exec (.cmp a b) s = .next t → t.reg q = s.reg q)

/-- Only PRN and PRA append to out, nothing removes from it, nothing reads it. R21; the event list is the spec's own decision
D16 (log 15). -/
def Obligations.OutputGrowsOnlyByPrint : Prop :=
  (∀ (i : Instr) (s t : State), exec i s = .next t →
    t.out = s.out ∨
    (∃ ra : RegIdx, i = .prn (regByte ra) ∧ t.out = s.out ++ [.num (s.reg ra)]) ∨
    (∃ ra : RegIdx, i = .pra (regByte ra) ∧ t.out = s.out ++ [.char (s.reg ra)])) ∧
  (∀ (i : Instr) (s t : State) (before : List Event), exec i s = .next t →
    exec i { s with out := before ++ s.out } = .next { t with out := before ++ t.out })

/-- Only HLT halts; every other instruction leaves the status or faults. R20, R79: the two ways a run ends. -/
def Obligations.OnlyHltHalts : Prop :=
  ∀ (i : Instr) (s t : State), exec i s = .next t →
    (i = .hlt → t.status = .halted) ∧ (i ≠ .hlt → t.status = s.status ∨ ∃ r : FaultRecord, t.status = .faulted r)

/-- Every step keeps the invariant: canonical memory, the four values of fl, the spec's fault records. R18 (the values of
`fl`), R160 to R164 (the fault records), and the canonical form of memory (log 13). -/
def Obligations.StepKeepsInvariant : Prop :=
  ∀ s t : State, s.Inv → step s = .next t → t.Inv

/-- The reset state and every launched state meet the invariant. R29, R182: every run starts in a state that meets the
invariant. -/
def Obligations.ResetAndLaunchMeetInvariant : Prop :=
  State.reset.Inv ∧ (∀ (image : List Byte) (s : State), State.launch image = some s → s.Inv)

/-- What reset leaves. R29, R180; `pc` at reset is the spec's own decision D1 (log 5). -/
def Obligations.ResetValues : Prop :=
  ∀ s : State,
    (∀ a : Byte, s.assertReset.readByte a = 0x00#8) ∧
    (∀ r : RegIdx, s.assertReset.reg r = if r = 7 then 0xF4#8 else 0x00#8) ∧
    s.assertReset.fl = 0x00#8 ∧ s.assertReset.pc = 0x00#8 ∧ s.assertReset.status = .running ∧ s.assertReset.out = [] ∧
    core.reset = s.assertReset

/-- Each fault a step takes has the cause the spec gives it. R160 to R164: nothing else raises a fault. -/
def Obligations.OnlyTheseCauseFaults : Prop :=
  ∀ (s t : State) (r : FaultRecord), step s = .next t → t.status = .faulted r →
    match r with
    | .invalidOpcode op => op = s.readByte s.pc ∧ ∀ i : Instr, i.opcode ≠ op
    | .divideByZero => ∃ ra rb : RegIdx, s.reg rb = 0x00#8 ∧
        (s.fetchInstr = .ok (.div (regByte ra) (regByte rb)) ∨ s.fetchInstr = .ok (.mod (regByte ra) (regByte rb)))
    | .addressOutOfRange n => n = 256 ∧ (∃ i : Instr, i.opcode = s.readByte s.pc) ∧
        255 < s.pc.toNat + ((decodeFields (s.readByte s.pc)).operandCount.toNat + 1)
    | .invalidRegisterIndex b => 7 < b.toNat ∧ ∃ i : Instr, s.fetchInstr = .ok i ∧ b ∈ i.regOperands

/-- Faults are precise except the advance fault. R82, R170: the spec's own decision D12 (log 8). -/
def Obligations.FaultsArePrecise : Prop :=
  ∀ (s t : State) (r : FaultRecord), step s = .next t → t.status = .faulted r →
    t.pc = s.pc ∧
    ((∀ n : Nat, r ≠ .addressOutOfRange n) → t = { s with status := .faulted r }) ∧
    ((decodeFields (s.readByte s.pc)).setsPc = true → t = { s with status := .faulted r }) ∧
    (255 < s.pc.toNat + (decodeFields (s.readByte s.pc)).operandCount.toNat → t = { s with status := .faulted r })

/-- An INT or IRET that is reached is executed for ever. R149, R150, R189: the hang is made visible; the spec's own decision
D10 (log 4). -/
def Obligations.IntIretRunForEver : Prop :=
  ∀ (s : State) (a : Byte) (n : Nat), s.status = .running →
    s.fetchInstr = .ok (.int a) ∨ s.fetchInstr = .ok .iret → Host.Core.run core n s = .next s

/-- Launch puts the program at address 0 upward, zeros above, and everything else at reset. R182; the bound on the image is
the spec's own decision D18 (log 19). -/
def Obligations.LaunchPlacesImage : Prop :=
  (∀ image : List Byte, image.length ≤ 256 → ∃ s : State, State.launch image = some s ∧
    (∀ (i : Nat) (x : Byte), image[i]? = some x → s.readByte (BitVec.ofNat 8 i) = x) ∧
    (∀ a : Byte, image.length ≤ a.toNat → s.readByte a = 0x00#8) ∧
    s = { State.reset with mem := s.mem }) ∧
  (∀ image : List Byte, 256 < image.length → State.launch image = none)

/-- The exit code of the end of a run. R169; two of the codes are the spec's own decision D17 (log 20). -/
def Obligations.ExitCodes : Prop :=
  Status.exitCode .halted = some 0 ∧ (∀ r : FaultRecord, Status.exitCode (.faulted r) = some 1) ∧
  Status.exitCode .running = none

/-- PUSH r then POP r' moves the register and restores SP, for every SP. R124, the source's law; the wrap of SP is D3 (log
6). -/
def Obligations.PushThenPopRestores : Prop :=
  ∀ (s : State) (ra rb : RegIdx), s.status = .running → Memory.wf s.mem = true → s.pc.toNat + 4 ≤ 255 → ra ≠ 7 → rb ≠ 7 →
    ∃ t u : State, exec (.push (regByte ra)) s = .next t ∧ exec (.pop (regByte rb)) t = .next u ∧
      u.reg rb = s.reg ra ∧ u.reg 7 = s.reg 7

/-- CALL then RET resumes at the instruction after the CALL, if the subroutine leaves SP and the stacked byte. R138, the
source's law. -/
def Obligations.CallThenRetResumes : Prop :=
  ∀ (s : State) (ra : RegIdx), s.status = .running → Memory.wf s.mem = true → s.pc.toNat + 2 ≤ 255 →
    ∃ t : State, exec (.call (regByte ra)) s = .next t ∧
      ∀ u : State, u.status = .running → u.reg 7 = t.reg 7 → u.readByte (t.reg 7) = t.readByte (t.reg 7) →
        ∃ v : State, exec .ret u = .next v ∧ v.pc = s.pc + 2#8 ∧ v.reg 7 = s.reg 7

/-- With two different registers, SUB undoes ADD always and DIV undoes MUL when the product fits a byte. R103 and R104, the
source's two laws as the conflicts C9 and C7 settle them. -/
def Obligations.ArithmeticLaws : Prop :=
  ∀ (s : State) (ra rb : RegIdx), s.status = .running → s.pc.toNat + 6 ≤ 255 → ra ≠ rb →
    (∃ t u : State, exec (.add (regByte ra) (regByte rb)) s = .next t ∧ exec (.sub (regByte ra) (regByte rb)) t = .next u ∧
      u.reg ra = s.reg ra) ∧
    (s.reg rb ≠ 0x00#8 → (s.reg ra).toNat * (s.reg rb).toNat ≤ 255 →
      ∃ t u : State, exec (.mul (regByte ra) (regByte rb)) s = .next t ∧ exec (.div (regByte ra) (regByte rb)) t = .next u ∧
        u.reg ra = s.reg ra)
end

