-- ==== Sys2Proof/Laws/Decode.lean ====
section
/-! SUPPORT. Small facts about the opcode map (spec/30_encoding.md R56 to R58): its rows have distinct opcode bytes, bits 7:6 of
each row's byte count the operand bytes the row takes, and each instruction's opcode byte is recognised. -/

namespace Sys2Proof

/-- The number of operand bytes a shape takes. -/
def Shape.operandBytes : Shape → Nat
  | .f0 _ => 0
  | .f1 _ => 1
  | .f2 _ => 2

/-- No two rows of the map have the same opcode byte (R58). -/
theorem opcodeMap_keys_distinct : (opcodeMap.map Prod.fst).Pairwise (· ≠ ·) := by decide

/-- The map has the 35 rows of R56. -/
theorem opcodeMap_length : opcodeMap.length = 35 := rfl

/-- Bits 7:6 of a row's opcode byte count the operand bytes the row takes (R57). -/
theorem opcodeMap_operandCount :
    ∀ row ∈ opcodeMap, (decodeFields row.1).operandCount.toNat = row.2.operandBytes := by
  have h : (opcodeMap.map fun row => (decodeFields row.1).operandCount.toNat) = opcodeMap.map fun row => row.2.operandBytes := by
    decide
  intro row hr
  exact List.map_inj_left.1 h row hr

/-- What looking an opcode up finds stands in the map under that byte. -/
theorem lookupOpcode_mem {op : Byte} {sh : Shape} {rows : List (Byte × Shape)} (h : lookupOpcode op rows = some sh) :
    (op, sh) ∈ rows := by
  induction rows with
  | nil => cases h
  | cons row rows ih =>
    obtain ⟨k, sh'⟩ := row
    unfold lookupOpcode at h
    split at h
    · rename_i hk
      injection h with h
      subst hk h
      exact List.mem_cons_self
    · exact List.mem_cons_of_mem _ (ih h)

theorem recognise_operandCount {op : Byte} {sh : Shape} (h : recognise op = some sh) :
    (decodeFields op).operandCount.toNat = sh.operandBytes :=
  opcodeMap_operandCount (op, sh) (lookupOpcode_mem h)

/-- The ALU marker is set exactly in the opcodes of the 15 ALU instructions (R57). -/
theorem isAlu_opcode (i : Instr) :
    (decodeFields i.opcode).isAlu = true ↔
      (∃ a, i = .inc a ∨ i = .dec a ∨ i = .not a) ∨
        ∃ a b, i = .add a b ∨ i = .sub a b ∨ i = .mul a b ∨ i = .div a b ∨ i = .mod a b ∨ i = .cmp a b ∨ i = .and a b ∨
          i = .or a b ∨ i = .xor a b ∨ i = .shl a b ∨ i = .shr a b ∨ i = .addi a b := by
  cases i <;> simp [decodeFields, Instr.opcode]

/-- The PC-set marker is set exactly in the opcodes of the jumps, CALL, RET, INT and IRET (R57). -/
theorem setsPc_opcode (i : Instr) :
    (decodeFields i.opcode).setsPc = true ↔
      i = .ret ∨ i = .iret ∨
        ∃ a, i = .call a ∨ i = .int a ∨ i = .jmp a ∨ i = .jeq a ∨ i = .jne a ∨ i = .jgt a ∨ i = .jlt a ∨ i = .jle a ∨
          i = .jge a := by
  cases i <;> simp [decodeFields, Instr.opcode]

/-- The operand count in an instruction's opcode byte is the number of its operand bytes (R57). -/
theorem operandCount_opcode (i : Instr) : (decodeFields i.opcode).operandCount.toNat = i.operandBytes.length := by
  cases i <;> simp [decodeFields, Instr.opcode, Instr.operandBytes]

/-- The length of an instruction's encoding (R50, R52). -/
theorem encode_length (i : Instr) : (encode i).length = 1 + (decodeFields i.opcode).operandCount.toNat := by
  rw [operandCount_opcode, encode, List.length_cons, Nat.add_comm]

end Sys2Proof
end

