-- ==== Sys2Proof/Laws/State.lean ====
section
/-! SUPPORT. The fields of a state after each update, so that no proof unfolds a record update. -/

namespace Sys2Proof.Machine

/-! ## `State.writeByte` -/

@[simp] theorem State.writeByte_mem (s : State) (a v : Byte) : (s.writeByte a v).mem = Memory.store s.mem a.toNat v := rfl
@[simp] theorem State.writeByte_regs (s : State) (a v : Byte) : (s.writeByte a v).regs = s.regs := rfl
@[simp] theorem State.writeByte_pc (s : State) (a v : Byte) : (s.writeByte a v).pc = s.pc := rfl
@[simp] theorem State.writeByte_fl (s : State) (a v : Byte) : (s.writeByte a v).fl = s.fl := rfl
@[simp] theorem State.writeByte_status (s : State) (a v : Byte) : (s.writeByte a v).status = s.status := rfl
@[simp] theorem State.writeByte_out (s : State) (a v : Byte) : (s.writeByte a v).out = s.out := rfl
@[simp] theorem State.writeByte_reg (s : State) (a v : Byte) (q : RegIdx) : (s.writeByte a v).reg q = s.reg q := rfl
@[simp] theorem State.writeByte_sp (s : State) (a v : Byte) : (s.writeByte a v).sp = s.sp := rfl

/-! ## `State.setReg` -/

@[simp] theorem State.setReg_mem (s : State) (r : RegIdx) (v : Byte) : (s.setReg r v).mem = s.mem := rfl
@[simp] theorem State.setReg_regs (s : State) (r : RegIdx) (v : Byte) : (s.setReg r v).regs = s.regs.set r.val v := rfl
@[simp] theorem State.setReg_pc (s : State) (r : RegIdx) (v : Byte) : (s.setReg r v).pc = s.pc := rfl
@[simp] theorem State.setReg_fl (s : State) (r : RegIdx) (v : Byte) : (s.setReg r v).fl = s.fl := rfl
@[simp] theorem State.setReg_status (s : State) (r : RegIdx) (v : Byte) : (s.setReg r v).status = s.status := rfl
@[simp] theorem State.setReg_out (s : State) (r : RegIdx) (v : Byte) : (s.setReg r v).out = s.out := rfl
@[simp] theorem State.setReg_readByte (s : State) (r : RegIdx) (v : Byte) (q : Byte) : (s.setReg r v).readByte q = s.readByte q := rfl

/-! ## `State.setPc` -/

@[simp] theorem State.setPc_mem (s : State) (t : Byte) : (s.setPc t).mem = s.mem := rfl
@[simp] theorem State.setPc_regs (s : State) (t : Byte) : (s.setPc t).regs = s.regs := rfl
@[simp] theorem State.setPc_pc (s : State) (t : Byte) : (s.setPc t).pc = t := rfl
@[simp] theorem State.setPc_fl (s : State) (t : Byte) : (s.setPc t).fl = s.fl := rfl
@[simp] theorem State.setPc_status (s : State) (t : Byte) : (s.setPc t).status = s.status := rfl
@[simp] theorem State.setPc_out (s : State) (t : Byte) : (s.setPc t).out = s.out := rfl
@[simp] theorem State.setPc_reg (s : State) (t : Byte) (q : RegIdx) : (s.setPc t).reg q = s.reg q := rfl
@[simp] theorem State.setPc_sp (s : State) (t : Byte) : (s.setPc t).sp = s.sp := rfl
@[simp] theorem State.setPc_readByte (s : State) (t : Byte) (q : Byte) : (s.setPc t).readByte q = s.readByte q := rfl

/-! ## `State.setFl` -/

@[simp] theorem State.setFl_mem (s : State) (v : Byte) : (s.setFl v).mem = s.mem := rfl
@[simp] theorem State.setFl_regs (s : State) (v : Byte) : (s.setFl v).regs = s.regs := rfl
@[simp] theorem State.setFl_pc (s : State) (v : Byte) : (s.setFl v).pc = s.pc := rfl
@[simp] theorem State.setFl_fl (s : State) (v : Byte) : (s.setFl v).fl = v := rfl
@[simp] theorem State.setFl_status (s : State) (v : Byte) : (s.setFl v).status = s.status := rfl
@[simp] theorem State.setFl_out (s : State) (v : Byte) : (s.setFl v).out = s.out := rfl
@[simp] theorem State.setFl_reg (s : State) (v : Byte) (q : RegIdx) : (s.setFl v).reg q = s.reg q := rfl
@[simp] theorem State.setFl_sp (s : State) (v : Byte) : (s.setFl v).sp = s.sp := rfl
@[simp] theorem State.setFl_readByte (s : State) (v : Byte) (q : Byte) : (s.setFl v).readByte q = s.readByte q := rfl

/-! ## `State.emit` -/

@[simp] theorem State.emit_mem (s : State) (e : Event) : (s.emit e).mem = s.mem := rfl
@[simp] theorem State.emit_regs (s : State) (e : Event) : (s.emit e).regs = s.regs := rfl
@[simp] theorem State.emit_pc (s : State) (e : Event) : (s.emit e).pc = s.pc := rfl
@[simp] theorem State.emit_fl (s : State) (e : Event) : (s.emit e).fl = s.fl := rfl
@[simp] theorem State.emit_status (s : State) (e : Event) : (s.emit e).status = s.status := rfl
@[simp] theorem State.emit_out (s : State) (e : Event) : (s.emit e).out = s.out ++ [e] := rfl
@[simp] theorem State.emit_reg (s : State) (e : Event) (q : RegIdx) : (s.emit e).reg q = s.reg q := rfl
@[simp] theorem State.emit_sp (s : State) (e : Event) : (s.emit e).sp = s.sp := rfl
@[simp] theorem State.emit_readByte (s : State) (e : Event) (q : Byte) : (s.emit e).readByte q = s.readByte q := rfl

/-! ## `State.halt` -/

@[simp] theorem State.halt_mem (s : State) : (s.halt).mem = s.mem := rfl
@[simp] theorem State.halt_regs (s : State) : (s.halt).regs = s.regs := rfl
@[simp] theorem State.halt_pc (s : State) : (s.halt).pc = s.pc := rfl
@[simp] theorem State.halt_fl (s : State) : (s.halt).fl = s.fl := rfl
@[simp] theorem State.halt_status (s : State) : (s.halt).status = .halted := rfl
@[simp] theorem State.halt_out (s : State) : (s.halt).out = s.out := rfl
@[simp] theorem State.halt_reg (s : State) (q : RegIdx) : (s.halt).reg q = s.reg q := rfl
@[simp] theorem State.halt_sp (s : State) : (s.halt).sp = s.sp := rfl
@[simp] theorem State.halt_readByte (s : State) (q : Byte) : (s.halt).readByte q = s.readByte q := rfl

/-! ## `State.raise` -/

@[simp] theorem State.raise_mem (s : State) (f : FaultRecord) : (s.raise f).mem = s.mem := rfl
@[simp] theorem State.raise_regs (s : State) (f : FaultRecord) : (s.raise f).regs = s.regs := rfl
@[simp] theorem State.raise_pc (s : State) (f : FaultRecord) : (s.raise f).pc = s.pc := rfl
@[simp] theorem State.raise_fl (s : State) (f : FaultRecord) : (s.raise f).fl = s.fl := rfl
@[simp] theorem State.raise_status (s : State) (f : FaultRecord) : (s.raise f).status = .faulted f := rfl
@[simp] theorem State.raise_out (s : State) (f : FaultRecord) : (s.raise f).out = s.out := rfl
@[simp] theorem State.raise_reg (s : State) (f : FaultRecord) (q : RegIdx) : (s.raise f).reg q = s.reg q := rfl
@[simp] theorem State.raise_sp (s : State) (f : FaultRecord) : (s.raise f).sp = s.sp := rfl
@[simp] theorem State.raise_readByte (s : State) (f : FaultRecord) (q : Byte) : (s.raise f).readByte q = s.readByte q := rfl

/-! ## `State.setSp` -/

@[simp] theorem State.setSp_mem (s : State) (v : Byte) : (s.setSp v).mem = s.mem := rfl
@[simp] theorem State.setSp_regs (s : State) (v : Byte) : (s.setSp v).regs = s.regs.set Config.spIndex.val v := rfl
@[simp] theorem State.setSp_pc (s : State) (v : Byte) : (s.setSp v).pc = s.pc := rfl
@[simp] theorem State.setSp_fl (s : State) (v : Byte) : (s.setSp v).fl = s.fl := rfl
@[simp] theorem State.setSp_status (s : State) (v : Byte) : (s.setSp v).status = s.status := rfl
@[simp] theorem State.setSp_out (s : State) (v : Byte) : (s.setSp v).out = s.out := rfl
@[simp] theorem State.setSp_readByte (s : State) (v : Byte) (q : Byte) : (s.setSp v).readByte q = s.readByte q := rfl

/-! ## Registers: read after write -/

@[simp] theorem State.reg_setReg_same (s : State) (r : RegIdx) (v : Byte) : (s.setReg r v).reg r = v := by
  simp [State.reg]

theorem State.reg_setReg_ne (s : State) {r q : RegIdx} (v : Byte) (h : q ≠ r) : (s.setReg r v).reg q = s.reg q := by
  have hv : r.val ≠ q.val := fun e => h (Fin.ext e.symm)
  simp [State.reg, Vector.getElem_set_ne, hv]

theorem State.reg_setReg (s : State) (r q : RegIdx) (v : Byte) :
    (s.setReg r v).reg q = if q = r then v else s.reg q := by
  by_cases h : q = r
  · subst h; simp
  · simp [h, State.reg_setReg_ne]

@[simp] theorem State.sp_setSp (s : State) (v : Byte) : (s.setSp v).sp = v := State.reg_setReg_same s _ v

theorem State.reg_setSp_ne (s : State) {q : RegIdx} (v : Byte) (h : q ≠ Config.spIndex) : (s.setSp v).reg q = s.reg q :=
  State.reg_setReg_ne s v h

/-! ## The stack operations -/

@[simp] theorem State.pushWith_pc (s : State) (f : State → Byte) : (s.pushWith f).pc = s.pc := rfl
@[simp] theorem State.pushWith_fl (s : State) (f : State → Byte) : (s.pushWith f).fl = s.fl := rfl
@[simp] theorem State.pushWith_status (s : State) (f : State → Byte) : (s.pushWith f).status = s.status := rfl
@[simp] theorem State.pushWith_out (s : State) (f : State → Byte) : (s.pushWith f).out = s.out := rfl

/-- What a push writes: one cell, at the decremented SP. -/
theorem State.pushWith_mem (s : State) (f : State → Byte) :
    (s.pushWith f).mem = Memory.store s.mem (s.sp - 1#8).toNat (f (s.setSp (s.sp - 1#8))) := by
  simp [State.pushWith]

@[simp] theorem State.pushWith_reg (s : State) (f : State → Byte) (q : RegIdx) :
    (s.pushWith f).reg q = (s.setSp (s.sp - 1#8)).reg q := rfl

@[simp] theorem State.pushWith_sp (s : State) (f : State → Byte) : (s.pushWith f).sp = s.sp - 1#8 :=
  State.sp_setSp s _

@[simp] theorem State.dropTop_mem (s : State) : s.dropTop.mem = s.mem := rfl
@[simp] theorem State.dropTop_pc (s : State) : s.dropTop.pc = s.pc := rfl
@[simp] theorem State.dropTop_fl (s : State) : s.dropTop.fl = s.fl := rfl
@[simp] theorem State.dropTop_status (s : State) : s.dropTop.status = s.status := rfl
@[simp] theorem State.dropTop_out (s : State) : s.dropTop.out = s.out := rfl
@[simp] theorem State.dropTop_readByte (s : State) (q : Byte) : s.dropTop.readByte q = s.readByte q := rfl
@[simp] theorem State.dropTop_sp (s : State) : s.dropTop.sp = s.sp + 1#8 := State.sp_setSp s _

theorem State.dropTop_reg_ne (s : State) {q : RegIdx} (h : q ≠ Config.spIndex) : s.dropTop.reg q = s.reg q :=
  State.reg_setSp_ne s _ h

/-! ## Equality of states -/

/-- Two states with equal fields are equal. -/
theorem State.eq_of_fields {s t : State} (hm : s.mem = t.mem) (hr : s.regs = t.regs) (hp : s.pc = t.pc) (hf : s.fl = t.fl)
    (hs : s.status = t.status) (ho : s.out = t.out) : s = t := by
  cases s; cases t; simp_all

/-- Two register files that read alike at every index are equal. -/
theorem State.regs_eq_of_reg {s t : State} (h : ∀ r : RegIdx, s.reg r = t.reg r) : s.regs = t.regs :=
  Vector.ext fun i hi => h ⟨i, hi⟩

end Sys2Proof.Machine
end

