-- ==== Sys2Proof/Laws/Memory.lean ====
section
/-! SUPPORT. The laws of memory: every operation keeps the canonical form, read after write, writes elsewhere, and equal reads
mean equal memories (spec/20_memory.md R31). -/

namespace Sys2Proof.Machine

/-! ## The canonical form -/

@[simp] theorem Memory.wfFrom_nil (lo : Nat) : Memory.wfFrom lo [] = true := rfl

theorem Memory.wfFrom_cons_iff (lo k : Nat) (v : Byte) (rest : Memory) :
    Memory.wfFrom lo ((k, v) :: rest) = true ↔
      lo ≤ k ∧ k < 256 ∧ v ≠ Memory.unlisted ∧ Memory.wfFrom (k + 1) rest = true := by
  simp only [Memory.wfFrom, Bool.and_eq_true, decide_eq_true_eq, and_assoc]
  exact Iff.rfl

theorem Memory.wfFrom_mono {lo lo' : Nat} (h : lo' ≤ lo) {m : Memory} (hm : Memory.wfFrom lo m = true) :
    Memory.wfFrom lo' m = true := by
  cases m with
  | nil => rfl
  | cons c rest =>
    obtain ⟨k, v⟩ := c
    rw [Memory.wfFrom_cons_iff] at hm ⊢
    exact ⟨h.trans hm.1, hm.2⟩

theorem Memory.wfFrom_consCell {lo a : Nat} {v : Byte} {rest : Memory} (hlo : lo ≤ a) (ha : a < 256)
    (h : Memory.wfFrom (a + 1) rest = true) : Memory.wfFrom lo (Memory.cons a v rest) = true := by
  unfold Memory.cons
  split
  · exact Memory.wfFrom_mono (by omega) h
  · rename_i hv
    exact (Memory.wfFrom_cons_iff lo a v rest).2 ⟨hlo, ha, hv, h⟩

/-- A write keeps the canonical form. -/
theorem Memory.wfFrom_store {lo a : Nat} (v : Byte) (hlo : lo ≤ a) (ha : a < 256) {m : Memory}
    (hm : Memory.wfFrom lo m = true) : Memory.wfFrom lo (Memory.store m a v) = true := by
  induction m generalizing lo with
  | nil => exact Memory.wfFrom_consCell hlo ha rfl
  | cons c rest ih =>
    obtain ⟨k, w⟩ := c
    have h := (Memory.wfFrom_cons_iff lo k w rest).1 hm
    unfold Memory.store
    split
    · exact Memory.wfFrom_consCell hlo ha ((Memory.wfFrom_cons_iff _ k w rest).2 ⟨by omega, h.2⟩)
    · split
      · rename_i hak
        subst hak
        exact Memory.wfFrom_consCell hlo ha h.2.2.2
      · exact (Memory.wfFrom_cons_iff lo k w _).2 ⟨h.1, h.2.1, h.2.2.1, ih (by omega) h.2.2.2⟩

theorem Memory.wf_store {m : Memory} {a : Nat} (v : Byte) (ha : a < 256) (hm : Memory.wf m = true) :
    Memory.wf (Memory.store m a v) = true := Memory.wfFrom_store v (Nat.zero_le a) ha hm

theorem Memory.wf_storeBytes (bs : List Byte) {m : Memory} (a : Nat) (hm : Memory.wf m = true) :
    Memory.wf (Memory.storeBytes m a bs) = true := by
  induction bs generalizing m a with
  | nil => exact hm
  | cons b bs ih =>
    unfold Memory.storeBytes
    split
    · rename_i ha
      exact ih (a + 1) (Memory.wf_store b ha hm)
    · exact hm

/-- `MemWrite` keeps the canonical form. -/
theorem State.writeByte_wf (s : State) (a v : Byte) (hm : Memory.wf s.mem = true) :
    Memory.wf (s.writeByte a v).mem = true := Memory.wf_store v a.isLt hm

/-- A push keeps the canonical form. -/
theorem State.pushWith_wf (s : State) (f : State → Byte) (hm : Memory.wf s.mem = true) :
    Memory.wf (s.pushWith f).mem = true := by
  rw [State.pushWith_mem]
  exact Memory.wf_store _ (s.sp - 1#8).isLt hm

/-! ## Reads -/

/-- Below the lowest listed address memory reads as the reset contents. -/
theorem Memory.load_below {lo : Nat} {m : Memory} (hm : Memory.wfFrom lo m = true) {a : Nat} (ha : a < lo) :
    Memory.load m a = Memory.unlisted := by
  induction m generalizing lo with
  | nil => rfl
  | cons c rest ih =>
    obtain ⟨k, v⟩ := c
    have h := (Memory.wfFrom_cons_iff lo k v rest).1 hm
    have hk : k ≠ a := by omega
    simp only [Memory.load, hk, if_false]
    exact ih h.2.2.2 (by omega)

theorem Memory.load_cons_same {a : Nat} {v : Byte} {rest : Memory} (h : Memory.wfFrom (a + 1) rest = true) :
    Memory.load (Memory.cons a v rest) a = v := by
  unfold Memory.cons
  split
  · rename_i hv
    rw [Memory.load_below h (by omega), hv]
  · simp [Memory.load]

theorem Memory.load_cons_ne {a b : Nat} (hab : b ≠ a) (v : Byte) (rest : Memory) :
    Memory.load (Memory.cons a v rest) b = Memory.load rest b := by
  unfold Memory.cons
  split
  · rfl
  · simp [Memory.load, Ne.symm hab]

/-- Read after write, on a canonical memory. -/
theorem Memory.load_store_same {lo : Nat} {m : Memory} (hm : Memory.wfFrom lo m = true) (a : Nat) (v : Byte) :
    Memory.load (Memory.store m a v) a = v := by
  induction m generalizing lo with
  | nil => exact Memory.load_cons_same rfl
  | cons c rest ih =>
    obtain ⟨k, w⟩ := c
    have h := (Memory.wfFrom_cons_iff lo k w rest).1 hm
    unfold Memory.store
    split
    · exact Memory.load_cons_same ((Memory.wfFrom_cons_iff _ k w rest).2 ⟨by omega, h.2⟩)
    · split
      · rename_i hak
        subst hak
        exact Memory.load_cons_same h.2.2.2
      · rename_i hak
        simp only [Memory.load, Ne.symm hak, if_false]
        exact ih h.2.2.2

/-- A write leaves every other address alone, on any memory. -/
theorem Memory.load_store_ne {a b : Nat} (hab : b ≠ a) (v : Byte) (m : Memory) :
    Memory.load (Memory.store m a v) b = Memory.load m b := by
  induction m with
  | nil => exact Memory.load_cons_ne hab v []
  | cons c rest ih =>
    obtain ⟨k, w⟩ := c
    unfold Memory.store
    split
    · exact Memory.load_cons_ne hab v _
    · split
      · rename_i hak
        subst hak
        rw [Memory.load_cons_ne hab]
        simp [Memory.load, Ne.symm hab]
      · simp only [Memory.load]
        split
        · rfl
        · exact ih

/-- Read after `MemWrite`, same cell. -/
theorem State.readByte_writeByte_same (s : State) (a v : Byte) (hm : Memory.wf s.mem = true) :
    (s.writeByte a v).readByte a = v := Memory.load_store_same hm _ v

/-- Read after `MemWrite`, another cell. -/
theorem State.readByte_writeByte_ne (s : State) {a b : Byte} (v : Byte) (h : b ≠ a) :
    (s.writeByte a v).readByte b = s.readByte b :=
  Memory.load_store_ne (fun e => h (BitVec.eq_of_toNat_eq e)) v s.mem

/-- After a push, the cell at the decremented SP. -/
theorem State.readByte_pushWith_same (s : State) (f : State → Byte) (hm : Memory.wf s.mem = true) :
    (s.pushWith f).readByte (s.sp - 1#8) = f (s.setSp (s.sp - 1#8)) := by
  unfold State.readByte
  rw [State.pushWith_mem]
  exact Memory.load_store_same hm _ _

/-- After a push, every other cell. -/
theorem State.readByte_pushWith_ne (s : State) (f : State → Byte) {b : Byte} (h : b ≠ s.sp - 1#8) :
    (s.pushWith f).readByte b = s.readByte b := by
  unfold State.readByte
  rw [State.pushWith_mem]
  exact Memory.load_store_ne (fun e => h (BitVec.eq_of_toNat_eq e)) _ s.mem

/-- Bytes stored from `a` upward leave the cells below `a` alone. -/
theorem Memory.load_storeBytes_below (bs : List Byte) {m : Memory} {a b : Nat} (hb : b < a) :
    Memory.load (Memory.storeBytes m a bs) b = Memory.load m b := by
  induction bs generalizing m a with
  | nil => rfl
  | cons x bs ih =>
    unfold Memory.storeBytes
    split
    · rw [ih (by omega), Memory.load_store_ne (by omega)]
    · rfl

/-- Reading the `i`-th of the bytes stored from `a` upward, as far as it has a cell. -/
theorem Memory.load_storeBytes_inside (bs : List Byte) {m : Memory} (hm : Memory.wf m = true) {a i : Nat} {x : Byte}
    (hx : bs[i]? = some x) (ha : a + i < 256) : Memory.load (Memory.storeBytes m a bs) (a + i) = x := by
  induction bs generalizing m a i with
  | nil => simp at hx
  | cons y bs ih =>
    have ha' : a < 256 := by omega
    unfold Memory.storeBytes
    rw [if_pos (show a < Config.memSize from ha')]
    cases i with
    | zero =>
      have hy : y = x := by simpa using hx
      rw [Nat.add_zero, Memory.load_storeBytes_below bs (by omega), hy]
      exact Memory.load_store_same hm a x
    | succ i =>
      have h := ih (m := Memory.store m a y) (Memory.wf_store y ha' hm) (a := a + 1) (i := i) (by simpa using hx) (by omega)
      rwa [show a + 1 + i = a + (i + 1) by omega] at h

/-- Bytes stored from `a` upward leave the cells from `a` plus their number alone. -/
theorem Memory.load_storeBytes_above (bs : List Byte) {m : Memory} {a b : Nat} (hb : a + bs.length ≤ b) :
    Memory.load (Memory.storeBytes m a bs) b = Memory.load m b := by
  induction bs generalizing m a with
  | nil => rfl
  | cons x bs ih =>
    simp only [List.length_cons] at hb
    unfold Memory.storeBytes
    split
    · rw [ih (by omega), Memory.load_store_ne (by omega)]
    · rfl

/-! ## Equal reads mean equal memories -/

theorem Memory.wfFrom_ext {lo : Nat} {m n : Memory} (hm : Memory.wfFrom lo m = true) (hn : Memory.wfFrom lo n = true)
    (h : ∀ a, Memory.load m a = Memory.load n a) : m = n := by
  induction m generalizing lo n with
  | nil =>
    cases n with
    | nil => rfl
    | cons c rest =>
      obtain ⟨k, v⟩ := c
      have hk := (Memory.wfFrom_cons_iff lo k v rest).1 hn
      have hr := h k
      simp only [Memory.load, if_true] at hr
      exact absurd hr.symm hk.2.2.1
  | cons c rest ih =>
    obtain ⟨k, v⟩ := c
    have hk := (Memory.wfFrom_cons_iff lo k v rest).1 hm
    cases n with
    | nil =>
      have hr := h k
      simp only [Memory.load, if_true] at hr
      exact absurd hr hk.2.2.1
    | cons d rest' =>
      obtain ⟨k', v'⟩ := d
      have hk' := (Memory.wfFrom_cons_iff lo k' v' rest').1 hn
      have hkk : k = k' := by
        rcases Nat.lt_trichotomy k k' with hlt | heq | hgt
        · have hr := h k
          simp only [Memory.load, if_true, if_neg (show k' ≠ k by omega)] at hr
          rw [Memory.load_below hk'.2.2.2 (by omega)] at hr
          exact absurd hr hk.2.2.1
        · exact heq
        · have hr := h k'
          simp only [Memory.load, if_true, if_neg (show k ≠ k' by omega)] at hr
          rw [Memory.load_below hk.2.2.2 (by omega)] at hr
          exact absurd hr.symm hk'.2.2.1
      subst hkk
      have hv : v = v' := by simpa [Memory.load] using h k
      subst hv
      have hrest : rest = rest' := by
        refine ih hk.2.2.2 hk'.2.2.2 fun a => ?_
        by_cases ha : k = a
        · subst ha
          rw [Memory.load_below hk.2.2.2 (by omega), Memory.load_below hk'.2.2.2 (by omega)]
        · have hr := h a
          simpa [Memory.load, ha] using hr
      rw [hrest]

/-- Canonical memories that read alike everywhere are equal. -/
theorem Memory.ext_of_wf {m n : Memory} (hm : Memory.wf m = true) (hn : Memory.wf n = true)
    (h : ∀ a, Memory.load m a = Memory.load n a) : m = n := Memory.wfFrom_ext hm hn h

/-- The memory of the reset state is canonical. -/
theorem State.reset_mem_wf : Memory.wf State.reset.mem = true := rfl

end Sys2Proof.Machine
end

