-- ==== Sys2Proof/Laws/Ops.lean ====
section
/-! SUPPORT. One spec lemma per shared operation of the machine: what each can do, said once. -/

namespace Sys2Proof.Machine

/-! ## `pc`-derived addresses -/

theorem pcPlus_of_le {A : Byte} {k : Nat} (h : A.toNat + k ≤ 255) : pcPlus A k = .ok (A + BitVec.ofNat 8 k) := by
  unfold pcPlus
  rw [if_pos h]
  congr 1
  apply BitVec.eq_of_toNat_eq
  simp [BitVec.toNat_add]

theorem pcPlus_of_gt {A : Byte} {k : Nat} (h : 255 < A.toNat + k) :
    pcPlus A k = .error (.addressOutOfRange (A.toNat + k)) := by
  unfold pcPlus
  rw [if_neg (by omega)]
  rfl

/-- Everything `pcPlus` can answer. -/
theorem pcPlus_cases (A : Byte) (k : Nat) :
    (A.toNat + k ≤ 255 ∧ pcPlus A k = .ok (A + BitVec.ofNat 8 k)) ∨
      (255 < A.toNat + k ∧ pcPlus A k = .error (.addressOutOfRange (A.toNat + k))) := by
  by_cases h : A.toNat + k ≤ 255
  · exact .inl ⟨h, pcPlus_of_le h⟩
  · exact .inr ⟨by omega, pcPlus_of_gt (by omega)⟩

/-! ## The dispatcher's advance and the end of an instruction -/

theorem State.advance_of_setsPc {s : State} {op : Byte} (h : (decodeFields op).setsPc = true) : s.advance op = s := by
  simp [State.advance, h]

theorem State.advance_of_not_running {s : State} {op : Byte} (h : s.status ≠ .running) : s.advance op = s := by
  simp [State.advance, h]

theorem State.advance_of_le {s : State} {op : Byte} (hs : s.status = .running) (hp : (decodeFields op).setsPc = false)
    (h : s.pc.toNat + ((decodeFields op).operandCount.toNat + 1) ≤ 255) :
    s.advance op = s.setPc (s.pc + BitVec.ofNat 8 ((decodeFields op).operandCount.toNat + 1)) := by
  simp [State.advance, hs, hp, pcPlus_of_le h]

theorem State.advance_of_gt {s : State} {op : Byte} (hs : s.status = .running) (hp : (decodeFields op).setsPc = false)
    (h : 255 < s.pc.toNat + ((decodeFields op).operandCount.toNat + 1)) :
    s.advance op = s.raise (.addressOutOfRange (s.pc.toNat + ((decodeFields op).operandCount.toNat + 1))) := by
  simp [State.advance, hs, hp, pcPlus_of_gt h]

/-- The advance past an instruction of one byte. -/
theorem State.advance_one {s : State} {op : Byte} (hs : s.status = .running) (hp : (decodeFields op).setsPc = false)
    (hn : (decodeFields op).operandCount.toNat = 0) (h : s.pc.toNat + 1 ≤ 255) : s.advance op = s.setPc (s.pc + 1#8) := by
  rw [State.advance_of_le hs hp (by rw [hn]; exact h), hn]

/-- The advance past an instruction of two bytes. -/
theorem State.advance_two {s : State} {op : Byte} (hs : s.status = .running) (hp : (decodeFields op).setsPc = false)
    (hn : (decodeFields op).operandCount.toNat = 1) (h : s.pc.toNat + 2 ≤ 255) : s.advance op = s.setPc (s.pc + 2#8) := by
  rw [State.advance_of_le hs hp (by rw [hn]; exact h), hn]

/-- The advance past an instruction of three bytes. -/
theorem State.advance_three {s : State} {op : Byte} (hs : s.status = .running) (hp : (decodeFields op).setsPc = false)
    (hn : (decodeFields op).operandCount.toNat = 2) (h : s.pc.toNat + 3 ≤ 255) : s.advance op = s.setPc (s.pc + 3#8) := by
  rw [State.advance_of_le hs hp (by rw [hn]; exact h), hn]

/-- Everything the advance can do: nothing, move `pc` past the instruction, or raise `AddressOutOfRange`. -/
theorem State.advance_cases (s : State) (op : Byte) :
    (s.advance op = s ∧ (s.status ≠ .running ∨ (decodeFields op).setsPc = true)) ∨
      (s.status = .running ∧ (decodeFields op).setsPc = false ∧
        s.pc.toNat + ((decodeFields op).operandCount.toNat + 1) ≤ 255 ∧
        s.advance op = s.setPc (s.pc + BitVec.ofNat 8 ((decodeFields op).operandCount.toNat + 1))) ∨
      (s.status = .running ∧ (decodeFields op).setsPc = false ∧
        255 < s.pc.toNat + ((decodeFields op).operandCount.toNat + 1) ∧
        s.advance op = s.raise (.addressOutOfRange (s.pc.toNat + ((decodeFields op).operandCount.toNat + 1)))) := by
  by_cases hs : s.status = .running
  · cases hp : (decodeFields op).setsPc with
    | true => exact .inl ⟨State.advance_of_setsPc hp, .inr rfl⟩
    | false =>
      rcases Nat.lt_or_ge 255 (s.pc.toNat + ((decodeFields op).operandCount.toNat + 1)) with h | h
      · exact .inr (.inr ⟨hs, rfl, h, State.advance_of_gt hs hp h⟩)
      · exact .inr (.inl ⟨hs, rfl, h, State.advance_of_le hs hp h⟩)
  · exact .inl ⟨State.advance_of_not_running hs, .inl hs⟩

/-- The advance writes only `pc` and `status`. -/
@[simp] theorem State.advance_mem (s : State) (op : Byte) : (s.advance op).mem = s.mem := by
  rcases s.advance_cases op with h | h | h <;> simp [h]
@[simp] theorem State.advance_regs (s : State) (op : Byte) : (s.advance op).regs = s.regs := by
  rcases s.advance_cases op with h | h | h <;> simp [h]
@[simp] theorem State.advance_fl (s : State) (op : Byte) : (s.advance op).fl = s.fl := by
  rcases s.advance_cases op with h | h | h <;> simp [h]
@[simp] theorem State.advance_out (s : State) (op : Byte) : (s.advance op).out = s.out := by
  rcases s.advance_cases op with h | h | h <;> simp [h]
@[simp] theorem State.advance_reg (s : State) (op : Byte) (q : RegIdx) : (s.advance op).reg q = s.reg q := by
  simp [State.reg]
@[simp] theorem State.advance_readByte (s : State) (op : Byte) (q : Byte) : (s.advance op).readByte q = s.readByte q := by
  simp [State.readByte]

@[simp] theorem retire_ok (i : Instr) (s t : State) : retire i s (.ok t) = .next (t.advance i.opcode) := rfl
@[simp] theorem retire_error (i : Instr) (s : State) (r : FaultRecord) : retire i s (.error r) = .next (s.raise r) := rfl

/-- The end of an instruction always answers a next state: the handler's state advanced, or the state before the instruction
with a fault taken. -/
theorem retire_cases (i : Instr) (s : State) (h : HandlerResult) :
    (∃ t, h = .ok t ∧ retire i s h = .next (t.advance i.opcode)) ∨ (∃ r, h = .error r ∧ retire i s h = .next (s.raise r)) := by
  cases h with
  | ok t => exact .inl ⟨t, rfl, rfl⟩
  | error r => exact .inr ⟨r, rfl, rfl⟩

/-! ## Operands -/

theorem regIndex_of_le {b : Byte} (h : b.toNat < 8) : regIndex b = .ok ⟨b.toNat, h⟩ := by simp [regIndex, h]

theorem regIndex_of_gt {b : Byte} (h : 7 < b.toNat) : regIndex b = .error (.invalidRegisterIndex b) := by
  unfold regIndex
  rw [dif_neg (by omega)]
  rfl

@[simp] theorem regByte_toNat (r : RegIdx) : (regByte r).toNat = r.val := by
  simp [regByte]
  omega

@[simp] theorem regIndex_regByte (r : RegIdx) : regIndex (regByte r) = .ok r := by
  have h : (regByte r).toNat < 8 := by simp
  rw [regIndex_of_le h]
  congr 1
  exact Fin.ext (regByte_toNat r)

/-- A well-formed register byte is the byte of the register it names. -/
theorem eq_regByte_of_le {b : Byte} (h : b.toNat < 8) : b = regByte ⟨b.toNat, h⟩ := by
  apply BitVec.eq_of_toNat_eq
  rw [regByte_toNat]

/-- Everything `regIndex` can answer. -/
theorem regIndex_cases (b : Byte) :
    (∃ r : RegIdx, b = regByte r ∧ regIndex b = .ok r) ∨ (7 < b.toNat ∧ regIndex b = .error (.invalidRegisterIndex b)) := by
  rcases Nat.lt_or_ge b.toNat 8 with h | h
  · exact .inl ⟨⟨b.toNat, h⟩, eq_regByte_of_le h, regIndex_of_le h⟩
  · exact .inr ⟨h, regIndex_of_gt h⟩

@[simp] theorem withReg_regByte (r : RegIdx) (k : RegIdx → HandlerResult) : withReg (regByte r) k = k r := by
  simp [withReg]

@[simp] theorem withRegs_regByte (ra rb : RegIdx) (k : RegIdx → RegIdx → HandlerResult) :
    withRegs (regByte ra) (regByte rb) k = k ra rb := by
  simp [withRegs]

theorem withReg_of_gt {a : Byte} (h : 7 < a.toNat) (k : RegIdx → HandlerResult) :
    withReg a k = .error (.invalidRegisterIndex a) := by
  simp [withReg, regIndex_of_gt h]

/-- Everything a handler with one register operand can do. -/
theorem withReg_cases (a : Byte) (k : RegIdx → HandlerResult) :
    (∃ r, a = regByte r ∧ withReg a k = k r) ∨ (7 < a.toNat ∧ withReg a k = .error (.invalidRegisterIndex a)) := by
  rcases regIndex_cases a with ⟨r, hr, h⟩ | ⟨hgt, h⟩
  · exact .inl ⟨r, hr, by simp [withReg, h]⟩
  · exact .inr ⟨hgt, by simp [withReg, h]⟩

/-- Everything a handler with two register operands can do: the first operand is checked before the second. -/
theorem withRegs_cases (a b : Byte) (k : RegIdx → RegIdx → HandlerResult) :
    (∃ ra rb, a = regByte ra ∧ b = regByte rb ∧ withRegs a b k = k ra rb) ∨
      (7 < a.toNat ∧ withRegs a b k = .error (.invalidRegisterIndex a)) ∨
      (∃ ra, a = regByte ra ∧ 7 < b.toNat ∧ withRegs a b k = .error (.invalidRegisterIndex b)) := by
  rcases withReg_cases a (fun ra => withReg b fun rb => k ra rb) with ⟨ra, ha, h⟩ | ⟨ha, h⟩
  · rcases withReg_cases b (fun rb => k ra rb) with ⟨rb, hb, h'⟩ | ⟨hb, h'⟩
    · exact .inl ⟨ra, rb, ha, hb, h.trans h'⟩
    · exact .inr (.inr ⟨ra, ha, hb, h.trans h'⟩)
  · exact .inr (.inl ⟨ha, h⟩)

/-! ## The ALU -/

/-- Everything an ALU operation can do: fault on a zero divisor, write `fl` (CMP), or write the destination register. -/
theorem aluApply_cases (op : AluOp) (ra : RegIdx) (vb : Byte) (s : State) :
    (aluDivides op = true ∧ vb = 0x00#8 ∧ aluApply op ra vb s = .error .divideByZero) ∨
      (op = .cmp ∧ aluApply op ra vb s = .ok (s.setFl (compareFlags (s.reg ra) vb))) ∨
      (op ≠ .cmp ∧ ¬(aluDivides op = true ∧ vb = 0x00#8) ∧
        aluApply op ra vb s = .ok (s.setReg ra (BitVec.ofInt 8 (aluExact op (s.reg ra).toNat vb.toNat)))) := by
  cases op <;> by_cases h : vb = 0x00#8 <;> simp [aluApply, aluCore, aluDivides, h]

/-- An ALU operation that writes its destination. -/
theorem aluApply_of_write {op : AluOp} {ra : RegIdx} {vb : Byte} {s : State} (hc : op ≠ .cmp)
    (hd : ¬(aluDivides op = true ∧ vb = 0x00#8)) :
    aluApply op ra vb s = .ok (s.setReg ra (BitVec.ofInt 8 (aluExact op (s.reg ra).toNat vb.toNat))) := by
  rcases aluApply_cases op ra vb s with h | h | h
  · exact absurd ⟨h.1, h.2.1⟩ hd
  · exact absurd h.1 hc
  · exact h.2.2

/-- The flags CMP writes are one of the three values with one bit set. -/
theorem compareFlags_cases (va vb : Byte) :
    compareFlags va vb = 0b00000001#8 ∨ compareFlags va vb = 0b00000010#8 ∨ compareFlags va vb = 0b00000100#8 := by
  unfold compareFlags
  split
  · exact .inl rfl
  · split
    · exact .inr (.inl rfl)
    · exact .inr (.inr rfl)

/-! ## Control flow -/

/-- Everything a conditional jump can do. -/
theorem jumpIf_cases (taken : Bool) (a : Byte) (s : State) :
    (7 < a.toNat ∧ jumpIf taken a s = .error (.invalidRegisterIndex a)) ∨
      (∃ ra, a = regByte ra ∧ taken = true ∧ jumpIf taken a s = .ok (s.setPc (s.reg ra))) ∨
      (∃ ra, a = regByte ra ∧ taken = false ∧ s.pc.toNat + 2 ≤ 255 ∧ jumpIf taken a s = .ok (s.setPc (s.pc + 2#8))) ∨
      (∃ ra, a = regByte ra ∧ taken = false ∧ 255 < s.pc.toNat + 2 ∧
        jumpIf taken a s = .error (.addressOutOfRange (s.pc.toNat + 2))) := by
  rcases regIndex_cases a with ⟨ra, ha, h⟩ | ⟨ha, h⟩
  · cases taken with
    | true => exact .inr (.inl ⟨ra, ha, rfl, by simp [jumpIf, withReg, h]⟩)
    | false =>
      rcases pcPlus_cases s.pc 2 with ⟨hp, h'⟩ | ⟨hp, h'⟩
      · exact .inr (.inr (.inl ⟨ra, ha, rfl, hp, by simp [jumpIf, withReg, h, h']⟩))
      · exact .inr (.inr (.inr ⟨ra, ha, rfl, hp, by simp [jumpIf, withReg, h, h']⟩))
  · exact .inl ⟨ha, by simp [jumpIf, withReg, h]⟩

/-- The empty body changes nothing. -/
@[simp] theorem inertBody_eq (len : Nat) (s : State) : inertBody len s = .ok s := rfl

/-! ## Fetch and step -/

/-- The bytes the fetch can reach, by the distance of `pc` from the top of memory. -/
theorem State.fetchBytes_of_le {s : State} (h : s.pc.toNat + 2 ≤ 255) :
    s.fetchBytes = [s.readByte s.pc, s.readByte (s.pc + 1#8), s.readByte (s.pc + 2#8)] := by
  have h1 : s.pc.toNat + 1 ≤ 255 := by omega
  simp [State.fetchBytes, pcPlus_of_le h1, pcPlus_of_le h]

theorem State.fetchBytes_of_254 {s : State} (h : s.pc.toNat = 254) :
    s.fetchBytes = [s.readByte s.pc, s.readByte (s.pc + 1#8)] := by
  have h1 : s.pc.toNat + 1 ≤ 255 := by omega
  have h2 : 255 < s.pc.toNat + 2 := by omega
  simp [State.fetchBytes, pcPlus_of_le h1, pcPlus_of_gt h2]

theorem State.fetchBytes_of_255 {s : State} (h : s.pc.toNat = 255) : s.fetchBytes = [s.readByte s.pc] := by
  have h1 : 255 < s.pc.toNat + 1 := by omega
  simp [State.fetchBytes, pcPlus_of_gt h1]

theorem step_of_fetch {s : State} {i : Instr} (hs : s.status = .running) (h : s.fetchInstr = .ok i) : step s = exec i s := by
  simp [step, hs, h]

theorem step_of_fetch_error {s : State} {r : FaultRecord} (hs : s.status = .running) (h : s.fetchInstr = .error r) :
    step s = .next (s.raise r) := by
  simp [step, hs, h]

/-- Everything a step that answers a next state can do: run the fetched instruction, or take a fault of the fetch. -/
theorem step_cases {s t : State} (h : step s = .next t) :
    s.status = .running ∧
      ((∃ i, s.fetchInstr = .ok i ∧ exec i s = .next t) ∨ (∃ r, s.fetchInstr = .error r ∧ t = s.raise r)) := by
  unfold step at h
  split at h
  · rename_i hs
    refine ⟨hs, ?_⟩
    split at h
    · rename_i i hi
      exact .inl ⟨i, hi, h⟩
    · rename_i r hr
      injection h with h
      exact .inr ⟨r, hr, h.symm⟩
  · cases h
  · cases h

end Sys2Proof.Machine
end

