-- ==== Sys2Proof/Laws/Exec.lean ====
section
/-! SUPPORT. What an instruction can do, said once: every meaning is its handler followed by `retire`, so an instruction that
answers a next state has either run its handler and advanced, or taken the handler's fault in the state before it. Then what
each handler form can answer. -/

namespace Sys2Proof.Machine

/-- The handler of each instruction, as its meaning hands it to `retire`. -/
def handlerOf (i : Instr) (s : State) : HandlerResult :=
  match i with
  | .nop => .ok s
  | .hlt => .ok s.halt
  | .ret => .ok (s.setPc s.stackTop).dropTop
  | .iret => inertBody 1 s
  | .push a => withReg a fun ra => .ok (s.pushWith fun t => t.reg ra)
  | .pop a => withReg a fun ra => .ok (s.setReg ra s.stackTop).dropTop
  | .prn a => withReg a fun ra => .ok (s.emit (.num (s.reg ra)))
  | .pra a => withReg a fun ra => .ok (s.emit (.char (s.reg ra)))
  | .call a => withReg a fun ra =>
    match pcPlus s.pc 2 with
    | .ok back => .ok ((s.pushWith fun _ => back).setPc ((s.pushWith fun _ => back).reg ra))
    | .error r => .error r
  | .int _ => inertBody 2 s
  | .jmp a => withReg a fun ra => .ok (s.setPc (s.reg ra))
  | .jeq a => jumpIf (condEq s.fl) a s
  | .jne a => jumpIf (condNe s.fl) a s
  | .jgt a => jumpIf (condGt s.fl) a s
  | .jlt a => jumpIf (condLt s.fl) a s
  | .jle a => jumpIf (condLe s.fl) a s
  | .jge a => jumpIf (condGe s.fl) a s
  | .inc a => aluReg .inc a s
  | .dec a => aluReg .dec a s
  | .not a => aluReg .not a s
  | .ldi a imm => withReg a fun ra => .ok (s.setReg ra imm)
  | .ld a b => withRegs a b fun ra rb => .ok (s.setReg ra (s.readByte (s.reg rb)))
  | .st a b => withRegs a b fun ra rb => .ok (s.writeByte (s.reg ra) (s.reg rb))
  | .add a b => aluRegReg .add a b s
  | .sub a b => aluRegReg .sub a b s
  | .mul a b => aluRegReg .mul a b s
  | .div a b => aluRegReg .div a b s
  | .mod a b => aluRegReg .mod a b s
  | .cmp a b => aluRegReg .cmp a b s
  | .and a b => aluRegReg .and a b s
  | .or a b => aluRegReg .or a b s
  | .xor a b => aluRegReg .xor a b s
  | .shl a b => aluRegReg .shl a b s
  | .shr a b => aluRegReg .shr a b s
  | .addi a imm => aluRegImm .addi a imm s

/-- Every meaning is its handler followed by `retire`. -/
theorem exec_eq_retire (i : Instr) (s : State) : exec i s = retire i s (handlerOf i s) := by cases i <;> rfl

/-- Everything an instruction can do. -/
theorem exec_cases {i : Instr} {s t : State} (h : exec i s = .next t) :
    (∃ u, handlerOf i s = .ok u ∧ t = u.advance i.opcode) ∨ (∃ r, handlerOf i s = .error r ∧ t = s.raise r) := by
  rw [exec_eq_retire] at h
  rcases retire_cases i s (handlerOf i s) with ⟨u, hu, he⟩ | ⟨r, hr, he⟩
  · rw [he] at h
    injection h with h
    exact .inl ⟨u, hu, h.symm⟩
  · rw [he] at h
    injection h with h
    exact .inr ⟨r, hr, h.symm⟩

/-- No instruction ends in the outcome `fault` or in a refusal. -/
theorem exec_total (i : Instr) (s : State) : ∃ t, exec i s = .next t := by
  rw [exec_eq_retire]
  rcases retire_cases i s (handlerOf i s) with ⟨u, -, he⟩ | ⟨r, -, he⟩
  · exact ⟨_, he⟩
  · exact ⟨_, he⟩

theorem exec_of_ok {i : Instr} {s u : State} (h : handlerOf i s = .ok u) : exec i s = .next (u.advance i.opcode) := by
  rw [exec_eq_retire, h, retire_ok]

theorem exec_of_error {i : Instr} {s : State} {r : FaultRecord} (h : handlerOf i s = .error r) :
    exec i s = .next (s.raise r) := by
  rw [exec_eq_retire, h, retire_error]

/-! ## What each handler form answers -/

theorem withReg_eq_ok {a : Byte} {k : RegIdx → HandlerResult} {u : State} (h : withReg a k = .ok u) :
    ∃ ra, a = regByte ra ∧ k ra = .ok u := by
  rcases withReg_cases a k with ⟨ra, ha, he⟩ | ⟨-, he⟩
  · exact ⟨ra, ha, he ▸ h⟩
  · rw [he] at h; cases h

theorem withReg_eq_error {a : Byte} {k : RegIdx → HandlerResult} {r : FaultRecord} (h : withReg a k = .error r) :
    (7 < a.toNat ∧ r = .invalidRegisterIndex a) ∨ (∃ ra, a = regByte ra ∧ k ra = .error r) := by
  rcases withReg_cases a k with ⟨ra, ha, he⟩ | ⟨ha, he⟩
  · exact .inr ⟨ra, ha, he ▸ h⟩
  · rw [he] at h
    injection h with h
    exact .inl ⟨ha, h.symm⟩

theorem withRegs_eq_ok {a b : Byte} {k : RegIdx → RegIdx → HandlerResult} {u : State} (h : withRegs a b k = .ok u) :
    ∃ ra rb, a = regByte ra ∧ b = regByte rb ∧ k ra rb = .ok u := by
  obtain ⟨ra, ha, h⟩ := withReg_eq_ok h
  obtain ⟨rb, hb, h⟩ := withReg_eq_ok h
  exact ⟨ra, rb, ha, hb, h⟩

theorem withRegs_eq_error {a b : Byte} {k : RegIdx → RegIdx → HandlerResult} {r : FaultRecord}
    (h : withRegs a b k = .error r) :
    (7 < a.toNat ∧ r = .invalidRegisterIndex a) ∨ (7 < b.toNat ∧ r = .invalidRegisterIndex b) ∨
      (∃ ra rb, a = regByte ra ∧ b = regByte rb ∧ k ra rb = .error r) := by
  rcases withReg_eq_error h with h | ⟨ra, ha, h⟩
  · exact .inl h
  · rcases withReg_eq_error h with h | ⟨rb, hb, h⟩
    · exact .inr (.inl h)
    · exact .inr (.inr ⟨ra, rb, ha, hb, h⟩)

theorem aluApply_eq_ok {op : AluOp} {ra : RegIdx} {vb : Byte} {s u : State} (h : aluApply op ra vb s = .ok u) :
    (op = .cmp ∧ u = s.setFl (compareFlags (s.reg ra) vb)) ∨
      (op ≠ .cmp ∧ u = s.setReg ra (BitVec.ofInt 8 (aluExact op (s.reg ra).toNat vb.toNat))) := by
  rcases aluApply_cases op ra vb s with ⟨-, -, he⟩ | ⟨hc, he⟩ | ⟨hc, -, he⟩
  · rw [he] at h; cases h
  · rw [he] at h; injection h with h; exact .inl ⟨hc, h.symm⟩
  · rw [he] at h; injection h with h; exact .inr ⟨hc, h.symm⟩

theorem aluApply_eq_error {op : AluOp} {ra : RegIdx} {vb : Byte} {s : State} {r : FaultRecord}
    (h : aluApply op ra vb s = .error r) : r = .divideByZero ∧ aluDivides op = true ∧ vb = 0x00#8 := by
  rcases aluApply_cases op ra vb s with ⟨hd, hz, he⟩ | ⟨-, he⟩ | ⟨-, -, he⟩
  · rw [he] at h; injection h with h; exact ⟨h.symm, hd, hz⟩
  · rw [he] at h; cases h
  · rw [he] at h; cases h

/-- A conditional jump writes only `pc`. -/
theorem jumpIf_eq_ok {taken : Bool} {a : Byte} {s u : State} (h : jumpIf taken a s = .ok u) : ∃ p, u = s.setPc p := by
  rcases jumpIf_cases taken a s with ⟨-, he⟩ | ⟨ra, -, -, he⟩ | ⟨ra, -, -, -, he⟩ | ⟨ra, -, -, -, he⟩
  · rw [he] at h; cases h
  · rw [he] at h; injection h with h; exact ⟨_, h.symm⟩
  · rw [he] at h; injection h with h; exact ⟨_, h.symm⟩
  · rw [he] at h; cases h

/-- A conditional jump faults on a register byte above 7, or not taken at the top of memory. -/
theorem jumpIf_eq_error {taken : Bool} {a : Byte} {s : State} {r : FaultRecord} (h : jumpIf taken a s = .error r) :
    (7 < a.toNat ∧ r = .invalidRegisterIndex a) ∨ (255 < s.pc.toNat + 2 ∧ r = .addressOutOfRange (s.pc.toNat + 2)) := by
  rcases jumpIf_cases taken a s with ⟨ha, he⟩ | ⟨ra, -, -, he⟩ | ⟨ra, -, -, -, he⟩ | ⟨ra, -, -, hp, he⟩
  · rw [he] at h; injection h with h; exact .inl ⟨ha, h.symm⟩
  · rw [he] at h; cases h
  · rw [he] at h; cases h
  · rw [he] at h; injection h with h; exact .inr ⟨hp, h.symm⟩

end Sys2Proof.Machine
end

