-- ==== Sys2Proof/Laws/PerInstr.lean ====
section
/-! SUPPORT. Families of statements made once per constructor of Instr: the length of an instruction's encoding is one byte plus
the operand count in bits 7:6 of its opcode byte (spec/30_encoding.md R50, R52, R57). -/

/-- The encoding of an instruction has one byte more than its opcode byte's operand count. -/
def Sys2Proof.Laws.EncodedLength.Statement (i : Sys2Proof.Instr) : Prop :=
  (Sys2Proof.encode i).length = 1 + (Sys2Proof.decodeFields i.opcode).operandCount.toNat

theorem Sys2Proof.Laws.EncodedLength.nop : Sys2Proof.Laws.EncodedLength.Statement .nop := Sys2Proof.encode_length _
theorem Sys2Proof.Laws.EncodedLength.hlt : Sys2Proof.Laws.EncodedLength.Statement .hlt := Sys2Proof.encode_length _
theorem Sys2Proof.Laws.EncodedLength.ret : Sys2Proof.Laws.EncodedLength.Statement .ret := Sys2Proof.encode_length _
theorem Sys2Proof.Laws.EncodedLength.iret : Sys2Proof.Laws.EncodedLength.Statement .iret := Sys2Proof.encode_length _
theorem Sys2Proof.Laws.EncodedLength.push (a : Sys2Proof.Byte) : Sys2Proof.Laws.EncodedLength.Statement (.push a) := Sys2Proof.encode_length _
theorem Sys2Proof.Laws.EncodedLength.pop (a : Sys2Proof.Byte) : Sys2Proof.Laws.EncodedLength.Statement (.pop a) := Sys2Proof.encode_length _
theorem Sys2Proof.Laws.EncodedLength.prn (a : Sys2Proof.Byte) : Sys2Proof.Laws.EncodedLength.Statement (.prn a) := Sys2Proof.encode_length _
theorem Sys2Proof.Laws.EncodedLength.pra (a : Sys2Proof.Byte) : Sys2Proof.Laws.EncodedLength.Statement (.pra a) := Sys2Proof.encode_length _
theorem Sys2Proof.Laws.EncodedLength.call (a : Sys2Proof.Byte) : Sys2Proof.Laws.EncodedLength.Statement (.call a) := Sys2Proof.encode_length _
theorem Sys2Proof.Laws.EncodedLength.int (a : Sys2Proof.Byte) : Sys2Proof.Laws.EncodedLength.Statement (.int a) := Sys2Proof.encode_length _
theorem Sys2Proof.Laws.EncodedLength.jmp (a : Sys2Proof.Byte) : Sys2Proof.Laws.EncodedLength.Statement (.jmp a) := Sys2Proof.encode_length _
theorem Sys2Proof.Laws.EncodedLength.jeq (a : Sys2Proof.Byte) : Sys2Proof.Laws.EncodedLength.Statement (.jeq a) := Sys2Proof.encode_length _
theorem Sys2Proof.Laws.EncodedLength.jne (a : Sys2Proof.Byte) : Sys2Proof.Laws.EncodedLength.Statement (.jne a) := Sys2Proof.encode_length _
theorem Sys2Proof.Laws.EncodedLength.jgt (a : Sys2Proof.Byte) : Sys2Proof.Laws.EncodedLength.Statement (.jgt a) := Sys2Proof.encode_length _
theorem Sys2Proof.Laws.EncodedLength.jlt (a : Sys2Proof.Byte) : Sys2Proof.Laws.EncodedLength.Statement (.jlt a) := Sys2Proof.encode_length _
theorem Sys2Proof.Laws.EncodedLength.jle (a : Sys2Proof.Byte) : Sys2Proof.Laws.EncodedLength.Statement (.jle a) := Sys2Proof.encode_length _
theorem Sys2Proof.Laws.EncodedLength.jge (a : Sys2Proof.Byte) : Sys2Proof.Laws.EncodedLength.Statement (.jge a) := Sys2Proof.encode_length _
theorem Sys2Proof.Laws.EncodedLength.inc (a : Sys2Proof.Byte) : Sys2Proof.Laws.EncodedLength.Statement (.inc a) := Sys2Proof.encode_length _
theorem Sys2Proof.Laws.EncodedLength.dec (a : Sys2Proof.Byte) : Sys2Proof.Laws.EncodedLength.Statement (.dec a) := Sys2Proof.encode_length _
theorem Sys2Proof.Laws.EncodedLength.not (a : Sys2Proof.Byte) : Sys2Proof.Laws.EncodedLength.Statement (.not a) := Sys2Proof.encode_length _
theorem Sys2Proof.Laws.EncodedLength.ldi (a imm : Sys2Proof.Byte) : Sys2Proof.Laws.EncodedLength.Statement (.ldi a imm) := Sys2Proof.encode_length _
theorem Sys2Proof.Laws.EncodedLength.ld (a b : Sys2Proof.Byte) : Sys2Proof.Laws.EncodedLength.Statement (.ld a b) := Sys2Proof.encode_length _
theorem Sys2Proof.Laws.EncodedLength.st (a b : Sys2Proof.Byte) : Sys2Proof.Laws.EncodedLength.Statement (.st a b) := Sys2Proof.encode_length _
theorem Sys2Proof.Laws.EncodedLength.add (a b : Sys2Proof.Byte) : Sys2Proof.Laws.EncodedLength.Statement (.add a b) := Sys2Proof.encode_length _
theorem Sys2Proof.Laws.EncodedLength.sub (a b : Sys2Proof.Byte) : Sys2Proof.Laws.EncodedLength.Statement (.sub a b) := Sys2Proof.encode_length _
theorem Sys2Proof.Laws.EncodedLength.mul (a b : Sys2Proof.Byte) : Sys2Proof.Laws.EncodedLength.Statement (.mul a b) := Sys2Proof.encode_length _
theorem Sys2Proof.Laws.EncodedLength.div (a b : Sys2Proof.Byte) : Sys2Proof.Laws.EncodedLength.Statement (.div a b) := Sys2Proof.encode_length _
theorem Sys2Proof.Laws.EncodedLength.mod (a b : Sys2Proof.Byte) : Sys2Proof.Laws.EncodedLength.Statement (.mod a b) := Sys2Proof.encode_length _
theorem Sys2Proof.Laws.EncodedLength.cmp (a b : Sys2Proof.Byte) : Sys2Proof.Laws.EncodedLength.Statement (.cmp a b) := Sys2Proof.encode_length _
theorem Sys2Proof.Laws.EncodedLength.and (a b : Sys2Proof.Byte) : Sys2Proof.Laws.EncodedLength.Statement (.and a b) := Sys2Proof.encode_length _
theorem Sys2Proof.Laws.EncodedLength.or (a b : Sys2Proof.Byte) : Sys2Proof.Laws.EncodedLength.Statement (.or a b) := Sys2Proof.encode_length _
theorem Sys2Proof.Laws.EncodedLength.xor (a b : Sys2Proof.Byte) : Sys2Proof.Laws.EncodedLength.Statement (.xor a b) := Sys2Proof.encode_length _
theorem Sys2Proof.Laws.EncodedLength.shl (a b : Sys2Proof.Byte) : Sys2Proof.Laws.EncodedLength.Statement (.shl a b) := Sys2Proof.encode_length _
theorem Sys2Proof.Laws.EncodedLength.shr (a b : Sys2Proof.Byte) : Sys2Proof.Laws.EncodedLength.Statement (.shr a b) := Sys2Proof.encode_length _
theorem Sys2Proof.Laws.EncodedLength.addi (a imm : Sys2Proof.Byte) : Sys2Proof.Laws.EncodedLength.Statement (.addi a imm) := Sys2Proof.encode_length _
end

