-- ==== Sys2Proof/Tests/Slice0.lean ====
section
/-! SUPPORT. Checks on fixed values: well-formedness, the encodings written out bit by bit from spec/30_encoding.md R56, one step
of each instruction with the result spec/95_test_vectors.md gives, and for each statement with hypotheses a witness that meets
them. -/

namespace Sys2Proof.Tests

open Sys2Proof.Machine

/-- The reset state with a `pc`, some registers, a flags byte and a memory. -/
def mk (pc : Byte) (regs : List (RegIdx × Byte)) (mem : Memory) (fl : Byte) : State :=
  { State.reset with
    mem := mem
    regs := regs.foldl (fun v p => v.set p.1.val p.2) State.reset.regs
    pc := pc
    fl := fl }

/-- The same with instruction bytes at `pc` upward. -/
def start (pc : Byte) (code : List Byte) (regs : List (RegIdx × Byte)) (mem : Memory) (fl : Byte) : State :=
  mk pc regs (Memory.storeBytes mem pc.toNat code) fl

/-- A look at the next state. -/
def seen {α : Type} (o : Outcome) (f : State → α) : Option α :=
  match o with
  | .next t => some (f t)
  | .fault _ => none
  | .refused _ => none

theorem seen_eq_some {α : Type} {o : Outcome} {f : State → α} {v : α} (h : seen o f = some v) :
    ∃ t, o = .next t ∧ f t = v := by
  cases o with
  | next t => exact ⟨t, rfl, Option.some.inj h⟩
  | fault r => cases h
  | refused r => cases h

/-- One step from instruction bytes at `pc`. -/
def after {α : Type} (pc : Byte) (code : List Byte) (regs : List (RegIdx × Byte)) (mem : Memory) (f : State → α) :
    Option α :=
  seen (step (start pc code regs mem 0#8)) f

/-! ## Well-formedness (R54) -/

theorem test_wellFormed_refuses_first_operand_8 :
    ([Instr.push 8#8, .pop 8#8, .prn 8#8, .pra 8#8, .call 8#8, .jmp 8#8, .jeq 8#8, .jne 8#8, .jgt 8#8, .jlt 8#8, .jle 8#8,
      .jge 8#8, .inc 8#8, .dec 8#8, .not 8#8, .ldi 8#8 0#8, .ld 8#8 0#8, .st 8#8 0#8, .add 8#8 0#8, .sub 8#8 0#8,
      .mul 8#8 0#8, .div 8#8 0#8, .mod 8#8 0#8, .cmp 8#8 0#8, .and 8#8 0#8, .or 8#8 0#8, .xor 8#8 0#8, .shl 8#8 0#8,
      .shr 8#8 0#8, .addi 8#8 0#8].all fun i => !i.wellFormed) = true := by decide

theorem test_wellFormed_refuses_second_operand_8 :
    ([Instr.ld 0#8 8#8, .st 0#8 8#8, .add 0#8 8#8, .sub 0#8 8#8, .mul 0#8 8#8, .div 0#8 8#8, .mod 0#8 8#8, .cmp 0#8 8#8,
      .and 0#8 8#8, .or 0#8 8#8, .xor 0#8 8#8, .shl 0#8 8#8, .shr 0#8 8#8].all fun i => !i.wellFormed) = true := by decide

theorem test_wellFormed_admits :
    ([Instr.nop, .hlt, .ret, .iret, .int 0xFF#8, .push 7#8, .ldi 7#8 0xFF#8, .addi 0#8 0xFF#8, .ld 7#8 7#8].all
      Instr.wellFormed) = true := by decide

/-! ## Encodings, bit by bit from the rows of R56 -/

/-- F0 and the stack and output rows: count 0 or 1, `A = 0`, `P = 0` unless RET or IRET. -/
theorem test_decode_words_system_stack :
    (decodeTableWord 8 0b00000000, decodeTableWord 8 0b00000001, decodeTableWord 8 0b00010001,
      decodeTableWord 8 0b00010011) = (some .nop, some .hlt, some .ret, some .iret) ∧
    (decodeTableWord 16 0b00000111_01000101, decodeTableWord 16 0b00000001_01000110,
      decodeTableWord 16 0b00000010_01000111, decodeTableWord 16 0b00000011_01001000) =
      (some (.push 7#8), some (.pop 1#8), some (.prn 2#8), some (.pra 3#8)) := by decide

/-- The rows with the PC-set bit and one operand. -/
theorem test_decode_words_control :
    (decodeTableWord 16 0b00000001_01010000, decodeTableWord 16 0b11111111_01010010,
      decodeTableWord 16 0b00000010_01010100) = (some (.call 1#8), some (.int 0xFF#8), some (.jmp 2#8)) ∧
    (decodeTableWord 16 0b00000010_01010101, decodeTableWord 16 0b00000010_01010110,
      decodeTableWord 16 0b00000010_01010111) = (some (.jeq 2#8), some (.jne 2#8), some (.jgt 2#8)) ∧
    (decodeTableWord 16 0b00000010_01011000, decodeTableWord 16 0b00000010_01011001,
      decodeTableWord 16 0b00000010_01011010) = (some (.jlt 2#8), some (.jle 2#8), some (.jge 2#8)) := by decide

/-- The rows LDI, LD, ST and the one-operand ALU rows. -/
theorem test_decode_words_data_alu1 :
    (decodeTableWord 24 0b00001000_00000111_10000010, decodeTableWord 24 0b00000001_00000110_10000011,
      decodeTableWord 24 0b00000001_00000110_10000100) = (some (.ldi 7#8 8#8), some (.ld 6#8 1#8), some (.st 6#8 1#8)) ∧
    (decodeTableWord 16 0b00000101_01100101, decodeTableWord 16 0b00000101_01100110,
      decodeTableWord 16 0b00000101_01101001) = (some (.inc 5#8), some (.dec 5#8), some (.not 5#8)) := by decide

/-- The two-operand ALU rows. -/
theorem test_decode_words_alu2 :
    (decodeTableWord 24 0b00000001_00000110_10100000, decodeTableWord 24 0b00000001_00000110_10100001,
      decodeTableWord 24 0b00000001_00000110_10100010) = (some (.add 6#8 1#8), some (.sub 6#8 1#8), some (.mul 6#8 1#8)) ∧
    (decodeTableWord 24 0b00000001_00000110_10100011, decodeTableWord 24 0b00000001_00000110_10100100,
      decodeTableWord 24 0b00000001_00000110_10100111) = (some (.div 6#8 1#8), some (.mod 6#8 1#8), some (.cmp 6#8 1#8)) ∧
    (decodeTableWord 24 0b00000001_00000110_10101000, decodeTableWord 24 0b00000001_00000110_10101010,
      decodeTableWord 24 0b00000001_00000110_10101011) = (some (.and 6#8 1#8), some (.or 6#8 1#8), some (.xor 6#8 1#8)) ∧
    (decodeTableWord 24 0b00000001_00000110_10101100, decodeTableWord 24 0b00000001_00000110_10101101,
      decodeTableWord 24 0b11111111_00000110_10101110) =
      (some (.shl 6#8 1#8), some (.shr 6#8 1#8), some (.addi 6#8 0xFF#8)) := by decide

/-- The bytes spec/95_test_vectors.md 2.1 and 2.9 list as no instruction's. -/
theorem test_decode_rejects_unknown :
    ([0x02#8, 0x10#8, 0x12#8, 0x40#8, 0x5B#8, 0x80#8, 0xA5#8, 0xAF#8, 0xC5#8, 0xF0#8, 0xFF#8].all fun op : Byte =>
      (recognise op).isNone) = true := by decide

theorem test_decode_rejects_short :
    decode [0x82#8, 0#8] = .error (.missingByte 2) ∧ decode [0x52#8] = .error (.missingByte 1) ∧
    decode [] = .error (.missingByte 0) := ⟨rfl, rfl, rfl⟩

/-- Rows of the decoder table of spec/95_test_vectors.md 2.1. -/
theorem test_decodeFields :
    decodeFields 0x13#8 = ⟨0#2, false, true, 3#4⟩ ∧ decodeFields 0x5A#8 = ⟨1#2, false, true, 10#4⟩ ∧
    decodeFields 0x69#8 = ⟨1#2, true, false, 9#4⟩ ∧ decodeFields 0xFF#8 = ⟨3#2, true, true, 15#4⟩ := by decide

/-! ## One step of each instruction; the vectors are those of spec/95_test_vectors.md 2.2 to 2.9 -/

theorem test_add : (after 0#8 [0xA0#8, 0#8, 1#8] [(0, 200#8), (1, 100#8)] [] fun t => (t.reg 0, t.reg 1, t.pc, t.fl)) =
    some (44#8, 100#8, 3#8, 0#8) := by decide
theorem test_add_same_register : (after 0#8 [0xA0#8, 0#8, 0#8] [(0, 200#8)] [] fun t => t.reg 0) = some 144#8 := by decide
theorem test_sub_wraps : (after 0#8 [0xA1#8, 0#8, 1#8] [(0, 5#8), (1, 10#8)] [] fun t => (t.reg 0, t.fl)) =
    some (251#8, 0#8) := by decide
theorem test_mul_keeps_low_byte : (after 0#8 [0xA2#8, 0#8, 1#8] [(0, 200#8), (1, 2#8)] [] fun t => (t.reg 0, t.pc)) =
    some (144#8, 3#8) := by decide
theorem test_div : (after 0#8 [0xA3#8, 0#8, 1#8] [(0, 17#8), (1, 5#8)] [] fun t => (t.reg 0, t.status)) =
    some (3#8, .running) := by decide
theorem test_div_by_zero : (after 0#8 [0xA3#8, 0#8, 1#8] [(0, 7#8), (1, 0#8)] [] fun t => (t.reg 0, t.pc, t.status)) =
    some (7#8, 0#8, .faulted .divideByZero) := by decide
theorem test_mod : (after 0#8 [0xA4#8, 0#8, 1#8] [(0, 255#8), (1, 16#8)] [] fun t => (t.reg 0, t.status)) =
    some (15#8, .running) := by decide
theorem test_mod_by_zero : (after 0xFD#8 [0xA4#8, 0#8, 1#8] [(0, 7#8), (1, 0#8)] [] fun t => (t.reg 0, t.pc, t.status)) =
    some (7#8, 0xFD#8, .faulted .divideByZero) := by decide
theorem test_and : (after 0#8 [0xA8#8, 0#8, 1#8] [(0, 0xCC#8), (1, 0xAA#8)] [] fun t => t.reg 0) = some 0x88#8 := by decide
theorem test_or : (after 0#8 [0xAA#8, 0#8, 1#8] [(0, 0xCC#8), (1, 0xAA#8)] [] fun t => t.reg 0) = some 0xEE#8 := by decide
theorem test_xor : (after 0#8 [0xAB#8, 0#8, 1#8] [(0, 0xCC#8), (1, 0xAA#8)] [] fun t => t.reg 0) = some 0x66#8 := by decide
theorem test_not : (after 0#8 [0x69#8, 0#8] [(0, 0xA5#8)] [] fun t => (t.reg 0, t.pc)) = some (0x5A#8, 2#8) := by decide
theorem test_shl : (after 0#8 [0xAC#8, 0#8, 1#8] [(0, 0xC1#8), (1, 1#8)] [] fun t => t.reg 0) = some 0x82#8 := by decide
theorem test_shl_by_8 : (after 0#8 [0xAC#8, 0#8, 1#8] [(0, 1#8), (1, 8#8)] [] fun t => t.reg 0) = some 0#8 := by decide
theorem test_shr : (after 0#8 [0xAD#8, 0#8, 1#8] [(0, 0x81#8), (1, 1#8)] [] fun t => t.reg 0) = some 0x40#8 := by decide
theorem test_shr_by_255 : (after 0#8 [0xAD#8, 0#8, 1#8] [(0, 0xFF#8), (1, 255#8)] [] fun t => t.reg 0) = some 0#8 := by
  decide
theorem test_inc_sp : (after 0#8 [0x65#8, 7#8] [] [] fun t => (t.reg 7, t.pc)) = some (0xF5#8, 2#8) := by decide
theorem test_inc_wraps : (after 0#8 [0x65#8, 0#8] [(0, 255#8)] [] fun t => (t.reg 0, t.fl)) = some (0#8, 0#8) := by decide
theorem test_dec_wraps : (after 0#8 [0x66#8, 0#8] [(0, 0#8)] [] fun t => (t.reg 0, t.pc)) = some (255#8, 2#8) := by decide
theorem test_cmp_unsigned : (after 0#8 [0xA7#8, 0#8, 1#8] [(0, 128#8), (1, 127#8)] [] fun t => (t.fl, t.reg 0, t.pc)) =
    some (0b010#8, 128#8, 3#8) := by decide
theorem test_cmp_clears_old_bit :
    seen (step (start 0#8 [0xA7#8, 0#8, 1#8] [(0, 1#8), (1, 2#8)] [] 0b001#8)) (fun t => t.fl) = some 0b100#8 := by decide
theorem test_addi : (after 0#8 [0xAE#8, 0#8, 10#8] [(0, 250#8)] [] fun t => t.reg 0) = some 4#8 := by decide
theorem test_addi_literal_9 : (after 0#8 [0xAE#8, 0#8, 9#8] [(0, 5#8)] [] fun t => (t.reg 0, t.status)) =
    some (14#8, .running) := by decide

theorem test_ldi : (after 0#8 [0x82#8, 7#8, 0x40#8] [] [] fun t => (t.reg 7, t.pc)) = some (0x40#8, 3#8) := by decide
theorem test_ldi_at_top_keeps_write :
    (after 0xFD#8 [0x82#8, 1#8, 7#8] [] [] fun t => (t.reg 1, t.pc, t.status)) =
      some (7#8, 0xFD#8, .faulted (.addressOutOfRange 256)) := by decide
theorem test_ld_same_register : (after 0#8 [0x83#8, 1#8, 1#8] [(1, 0x20#8)] [(0x20, 0x99#8)] fun t => t.reg 1) =
    some 0x99#8 := by decide
theorem test_ld_reads_own_opcode : (after 0x10#8 [0x83#8, 0#8, 1#8] [(1, 0x10#8)] [] fun t => (t.reg 0, t.pc)) =
    some (0x83#8, 0x13#8) := by decide
theorem test_st : (after 0#8 [0x84#8, 0#8, 1#8] [(0, 0x30#8), (1, 0x7B#8)] [] fun t => (t.readByte 0x30#8, t.pc)) =
    some (0x7B#8, 3#8) := by decide
theorem test_st_over_own_operand :
    (after 0x10#8 [0x84#8, 0#8, 1#8] [(0, 0x11#8), (1, 0x07#8)] [] fun t => t.mem) =
      some [(0x10, 0x84#8), (0x11, 0x07#8), (0x12, 0x01#8)] := by decide
theorem test_push_sp : (after 0#8 [0x45#8, 7#8] [] [] fun t => (t.reg 7, t.readByte 0xF3#8)) =
    some (0xF3#8, 0xF3#8) := by decide
theorem test_push_wraps :
    (after 0x10#8 [0x45#8, 0#8] [(0, 0x2A#8), (7, 0#8)] [] fun t => (t.reg 7, t.readByte 0xFF#8, t.readByte 0#8, t.pc)) =
      some (0xFF#8, 0x2A#8, 0#8, 0x12#8) := by decide
theorem test_pop : (after 0#8 [0x46#8, 1#8] [(7, 0xF3#8)] [(0xF3, 0x2A#8)] fun t => (t.reg 1, t.reg 7, t.readByte 0xF3#8)) =
    some (0x2A#8, 0xF4#8, 0x2A#8) := by decide
theorem test_pop_sp : (after 0#8 [0x46#8, 7#8] [(7, 0xF3#8)] [(0xF3, 0xFF#8)] fun t => (t.reg 7, t.pc)) =
    some (0#8, 2#8) := by decide

theorem test_jmp_at_top : (after 0xFE#8 [0x54#8, 2#8] [(2, 0#8)] [] fun t => (t.pc, t.status)) = some (0#8, .running) := by
  decide

/-- `pc` after a conditional jump at 8 with target 0x20, for `fl` = 000, 001, 010, 100 in turn. -/
def jumpRow (op : Byte) : List (Option Byte) :=
  [0b000#8, 0b001#8, 0b010#8, 0b100#8].map fun fl => seen (step (start 8#8 [op, 2#8] [(2, 0x20#8)] [] fl)) fun t => t.pc

theorem test_jeq : jumpRow 0x55#8 = [some 0x0A#8, some 0x20#8, some 0x0A#8, some 0x0A#8] := by decide
theorem test_jne : jumpRow 0x56#8 = [some 0x20#8, some 0x0A#8, some 0x20#8, some 0x20#8] := by decide
theorem test_jgt : jumpRow 0x57#8 = [some 0x0A#8, some 0x0A#8, some 0x20#8, some 0x0A#8] := by decide
theorem test_jge : jumpRow 0x5A#8 = [some 0x0A#8, some 0x20#8, some 0x20#8, some 0x0A#8] := by decide
theorem test_jlt : jumpRow 0x58#8 = [some 0x0A#8, some 0x0A#8, some 0x0A#8, some 0x20#8] := by decide
theorem test_jle : jumpRow 0x59#8 = [some 0x0A#8, some 0x20#8, some 0x0A#8, some 0x20#8] := by decide
theorem test_jeq_not_taken_at_top : (after 0xFE#8 [0x55#8, 2#8] [(2, 0x20#8)] [] fun t => (t.pc, t.status)) =
    some (0xFE#8, .faulted (.addressOutOfRange 256)) := by decide

theorem test_call_sp : (after 6#8 [0x50#8, 7#8] [] [] fun t => (t.pc, t.reg 7, t.readByte 0xF3#8)) =
    some (0xF3#8, 0xF3#8, 8#8) := by decide
theorem test_call_return_address_above_top :
    (after 0xFE#8 [0x50#8, 1#8] [(1, 0x18#8)] [] fun t => (t.pc, t.reg 7, t.readByte 0xF3#8, t.status)) =
      some (0xFE#8, 0xF4#8, 0#8, .faulted (.addressOutOfRange 256)) := by decide
theorem test_ret : (after 0xFF#8 [0x11#8] [(7, 0xF3#8)] [(0xF3, 8#8)] fun t => (t.pc, t.reg 7, t.status)) =
    some (8#8, 0xF4#8, .running) := by decide
theorem test_ret_on_empty_stack : (after 0x20#8 [0x11#8] [] [] fun t => (t.pc, t.reg 7)) = some (0#8, 0xF5#8) := by decide

theorem test_hlt_at_top : (after 0xFF#8 [0x01#8] [] [] fun t => (t.pc, t.status)) = some (0xFF#8, .halted) := by decide
theorem test_nop : (after 7#8 [0x00#8] [] [] fun t => (t.pc, t.status)) = some (8#8, .running) := by decide
theorem test_nop_at_top : (after 0xFF#8 [0x00#8] [] [] fun t => (t.pc, t.status)) =
    some (0xFF#8, .faulted (.addressOutOfRange 256)) := by decide
theorem test_prn : (after 0#8 [0x47#8, 0#8] [(0, 255#8)] [] fun t => (t.out, t.pc)) = some ([.num 255#8], 2#8) := by decide
theorem test_prn_at_top_keeps_event : (after 0xFE#8 [0x47#8, 0#8] [(0, 5#8)] [] fun t => (t.out, t.status)) =
    some ([.num 5#8], .faulted (.addressOutOfRange 256)) := by decide
theorem test_pra : (after 0#8 [0x48#8, 0#8] [(0, 72#8)] [] fun t => (t.out, t.pc)) = some ([.char 72#8], 2#8) := by decide
theorem test_int_stays : (after 4#8 [0x52#8, 0xFF#8] [] [] fun t => (t.pc, t.status)) = some (4#8, .running) := by decide
theorem test_int_operand_at_top : (after 0xFF#8 [0x52#8] [] [] fun t => t.status) =
    some (.faulted (.addressOutOfRange 256)) := by decide
theorem test_iret_stays : (after 0xFF#8 [0x13#8] [] [] fun t => (t.pc, t.status)) = some (0xFF#8, .running) := by decide

/-! ## Which fault wins (spec/95_test_vectors.md 2.9) -/

theorem test_opcode_before_operand_fetch : (after 0xFF#8 [0xC5#8] [] [] fun t => t.status) =
    some (.faulted (.invalidOpcode 0xC5#8)) := by decide
theorem test_operand_fetch_before_register_check : (after 0xFE#8 [0x82#8, 9#8] [] [] fun t => t.status) =
    some (.faulted (.addressOutOfRange 256)) := by decide
theorem test_register_check_before_advance : (after 0xFD#8 [0xA0#8, 0#8, 9#8] [] [] fun t => t.status) =
    some (.faulted (.invalidRegisterIndex 9#8)) := by decide
theorem test_register_check_before_divide : (after 0#8 [0xA3#8, 9#8, 1#8] [] [] fun t => t.status) =
    some (.faulted (.invalidRegisterIndex 9#8)) := by decide
theorem test_register_check_before_condition : (after 8#8 [0x55#8, 9#8] [] [] fun t => (t.pc, t.status)) =
    some (8#8, .faulted (.invalidRegisterIndex 9#8)) := by decide
theorem test_first_register_checked_first : (after 0#8 [0xA0#8, 8#8, 9#8] [] [] fun t => t.status) =
    some (.faulted (.invalidRegisterIndex 8#8)) := by decide

/-! ## Reset, load, the step after reset, the terminal states -/

theorem test_reset : (State.reset.reg 7, State.reset.pc, State.reset.fl, State.reset.status) =
    (0xF4#8, 0#8, 0#8, .running) := by decide
theorem test_withFetchWord_runs : seen (step (State.reset.withFetchWord 24 0x080082)) (fun t => (t.reg 0, t.pc)) =
    some (8#8, 3#8) := by decide
theorem test_launch_file_of_spec : (State.launch [0x82#8, 0#8, 8#8, 0x47#8, 0#8, 1#8]).map (fun s => s.mem) =
    some [(0, 0x82#8), (2, 8#8), (3, 0x47#8), (5, 1#8)] := by decide
theorem test_terminal_states_have_no_step :
    (seen (step { State.reset with status := .halted }) fun t => t.pc) = none ∧
    (seen (step { State.reset with status := .faulted .divideByZero }) fun t => t.pc) = none := by decide

/-! ## Witnesses: for each statement with hypotheses, a state and operands that meet all of them, one per clause, at the ends
of the ranges -/

/-- A state with nothing placed in memory. -/
def bare (pc : Byte) (regs : List (RegIdx × Byte)) : State := mk pc regs [] 0#8

/-- Running, with room for an instruction of `n` bytes and the advance past it. -/
def roomFor (n : Nat) (s : State) : Prop := s.status = .running ∧ s.pc.toNat + n ≤ 255

theorem room3 : roomFor 3 (bare 252#8 [(0, 0xFF#8), (1, 0x80#8)]) := ⟨rfl, by decide⟩
theorem room2 : roomFor 2 (bare 253#8 [(0, 0xFF#8), (1, 0x80#8)]) := ⟨rfl, by decide⟩

theorem witness_LengthComesFromOpcodeBits :
    decode [0x82#8, 7#8, 0xFF#8, 0x47#8] = .ok (.ldi 7#8 0xFF#8, [0x47#8]) ∧
    (∃ s t : State, (decodeFields (s.readByte s.pc)).setsPc = false ∧ step s = .next t ∧ t.status = .running) := by
  obtain ⟨t, ht, hs⟩ := seen_eq_some (o := step (start 252#8 [0x82#8, 7#8, 0xFF#8] [] [] 0#8))
    (f := fun t => t.status) (v := .running) (by decide)
  exact ⟨rfl, _, t, by decide, ht, hs⟩

theorem witness_DecodeReadsExactlyTheEncoding :
    decode [0xA0#8, 0#8, 1#8, 0#8, 1#8] = .ok (.add 0#8 1#8, [0#8, 1#8]) ∧
    [0xA0#8, 0#8, 1#8, 0#8, 1#8] = encode (.add 0#8 1#8) ++ [0#8, 1#8] := ⟨rfl, rfl⟩

/-- 0xFF is no instruction's opcode. -/
theorem opcode_ne_ff (i : Instr) : i.opcode ≠ 0xFF#8 := by cases i <;> simp [Instr.opcode]

theorem witness_UnknownOpcodesAreRejected : ∀ i : Instr, i.opcode ≠ 0xFF#8 := opcode_ne_ff

/-- An LDI whose last byte lies at 255. -/
def ldiAtTop : State := start 253#8 [0x82#8, 7#8, 0xFF#8] [] [] 0#8

theorem witness_StepRunsInstructionAtPc :
    (ldiAtTop.status = .running ∧
      ∀ (k : Nat) (x : Byte), (encode (.ldi 7#8 0xFF#8))[k]? = some x →
        ldiAtTop.pc.toNat + k ≤ 255 ∧ ldiAtTop.readByte (ldiAtTop.pc + BitVec.ofNat 8 k) = x) ∧
    decode ldiAtTop.fetchBytes = .ok (.ldi 7#8 0xFF#8, []) := by
  refine ⟨⟨rfl, fun k x h => ?_⟩, rfl⟩
  match k with
  | 0 => exact ⟨by decide, Option.some.inj (Eq.trans (by decide) h)⟩
  | 1 => exact ⟨by decide, Option.some.inj (Eq.trans (by decide) h)⟩
  | 2 => exact ⟨by decide, Option.some.inj (Eq.trans (by decide) h)⟩
  | k + 3 => simp [encode, Instr.operandBytes] at h

theorem witness_StepRaisesInvalidOpcode :
    (start 255#8 [0xFF#8] [] [] 0#8).status = .running ∧
    ∀ i : Instr, i.opcode ≠ (start 255#8 [0xFF#8] [] [] 0#8).readByte (start 255#8 [0xFF#8] [] [] 0#8).pc :=
  ⟨rfl, opcode_ne_ff⟩

theorem witness_StepRaisesOperandFetchFault :
    (∃ s : State, s.status = .running ∧ s.readByte s.pc = (Instr.ldi 0#8 0#8).opcode ∧
      255 < s.pc.toNat + (Instr.ldi 0#8 0#8).operandBytes.length) ∧
    (∃ s : State, s.status = .running ∧ s.readByte s.pc = (Instr.int 0#8).opcode ∧
      255 < s.pc.toNat + (Instr.int 0#8).operandBytes.length) :=
  ⟨⟨start 254#8 [0x82#8] [] [] 0#8, rfl, by decide, by decide⟩, ⟨start 255#8 [0x52#8] [] [] 0#8, rfl, by decide, by decide⟩⟩

theorem witness_StepRunsPlacedWord :
    ∃ s : State, Memory.wf s.mem = true ∧ s.pc.toNat ≤ 253 ∧ decodeTableWord 24 0x0701A0 = some (.add 1#8 7#8) :=
  ⟨bare 253#8 [], rfl, by decide, by decide⟩

theorem witness_FaultIsSticky :
    ({ State.reset with status := .faulted (.addressOutOfRange 256) } : State).status =
      .faulted (.addressOutOfRange 256) := rfl

theorem witness_AddResult : ∃ s : State, roomFor 3 s ∧ 255 < (s.reg 0).toNat + (s.reg 1).toNat := ⟨_, room3, by decide⟩
theorem witness_SubResult : ∃ s : State, roomFor 3 s ∧ (s.reg 1).toNat < (s.reg 0).toNat := ⟨_, room3, by decide⟩
theorem witness_MulResult : ∃ s : State, roomFor 3 s ∧ 255 < (s.reg 0).toNat * (s.reg 1).toNat := ⟨_, room3, by decide⟩

theorem witness_DivResult :
    (∃ s : State, s.status = .running ∧ s.reg 1 = 0x00#8) ∧ (∃ s : State, roomFor 3 s ∧ s.reg 1 ≠ 0x00#8) :=
  ⟨⟨bare 255#8 [], rfl, by decide⟩, ⟨bare 252#8 [(1, 1#8)], ⟨rfl, by decide⟩, by decide⟩⟩

theorem witness_ModResult :
    (∃ s : State, s.status = .running ∧ s.reg 7 = 0x00#8) ∧ (∃ s : State, roomFor 3 s ∧ s.reg 7 ≠ 0x00#8) :=
  ⟨⟨bare 255#8 [(7, 0#8)], rfl, by decide⟩, ⟨bare 252#8 [], ⟨rfl, by decide⟩, by decide⟩⟩

theorem witness_BitwiseResults : ∃ s : State, roomFor 3 s := ⟨_, room3⟩
theorem witness_NotResult : ∃ s : State, roomFor 2 s := ⟨_, room2⟩

theorem witness_ShlResult :
    (∃ s : State, roomFor 3 s ∧ (s.reg 1).toNat = 7) ∧ (∃ s : State, roomFor 3 s ∧ (s.reg 1).toNat = 8) :=
  ⟨⟨bare 252#8 [(1, 7#8)], ⟨rfl, by decide⟩, by decide⟩, ⟨bare 252#8 [(1, 8#8)], ⟨rfl, by decide⟩, by decide⟩⟩

theorem witness_ShrResult :
    (∃ s : State, roomFor 3 s ∧ (s.reg 1).toNat = 7) ∧ (∃ s : State, roomFor 3 s ∧ (s.reg 1).toNat = 8) :=
  witness_ShlResult

theorem witness_IncDecResults :
    (∃ s : State, roomFor 2 s ∧ s.reg 0 = 255#8) ∧ (∃ s : State, roomFor 2 s ∧ s.reg 0 = 0#8) :=
  ⟨⟨_, room2, by decide⟩, ⟨bare 253#8 [], ⟨rfl, by decide⟩, by decide⟩⟩

theorem witness_CmpResult :
    (∃ s : State, roomFor 3 s ∧ (s.reg 0).toNat = (s.reg 1).toNat) ∧
    (∃ s : State, roomFor 3 s ∧ (s.reg 1).toNat < (s.reg 0).toNat) ∧
    (∃ s : State, roomFor 3 s ∧ (s.reg 0).toNat < (s.reg 1).toNat) :=
  ⟨⟨bare 252#8 [], ⟨rfl, by decide⟩, by decide⟩, ⟨_, room3, by decide⟩, ⟨bare 252#8 [(1, 1#8)], ⟨rfl, by decide⟩, by decide⟩⟩

theorem witness_AddiResult : ∃ s : State, roomFor 3 s := ⟨_, room3⟩
theorem witness_LdiResult : ∃ s : State, roomFor 3 s := ⟨_, room3⟩
theorem witness_LdResult : ∃ s : State, roomFor 3 s := ⟨_, room3⟩
theorem witness_StResult : ∃ s : State, roomFor 3 s := ⟨_, room3⟩

theorem witness_PushResult :
    (∃ s : State, roomFor 2 s ∧ s.reg 7 = 0#8) ∧ (∃ s : State, roomFor 2 s ∧ s.reg 7 = 0xF4#8) :=
  ⟨⟨bare 253#8 [(7, 0#8)], ⟨rfl, by decide⟩, by decide⟩, ⟨_, room2, by decide⟩⟩

theorem witness_PopResult :
    (∃ (s : State) (ra : RegIdx), roomFor 2 s ∧ ra ≠ 7 ∧ s.reg 7 = 255#8) ∧ (∃ (s : State) (ra : RegIdx), roomFor 2 s ∧ ra = 7) :=
  ⟨⟨bare 253#8 [(7, 255#8)], 6, ⟨rfl, by decide⟩, by decide, by decide⟩, ⟨_, 7, room2, rfl⟩⟩

theorem witness_JmpResult : (bare 255#8 []).status = .running := rfl

/-- A taken jump at 255, a jump not taken at 253, and one not taken at 254, for the tests `f` of the flags byte. -/
def JumpClausesMet (f : Byte → Bool) : Prop :=
  (∃ s : State, s.status = .running ∧ f s.fl = true ∧ s.pc.toNat = 255) ∧
  (∃ s : State, s.status = .running ∧ f s.fl = false ∧ s.pc.toNat + 2 = 255) ∧
  (∃ s : State, s.status = .running ∧ f s.fl = false ∧ s.pc.toNat + 2 = 256)

theorem jumpClausesMet {f : Byte → Bool} (yes no : Byte) (hy : f yes = true) (hn : f no = false) : JumpClausesMet f :=
  ⟨⟨mk 255#8 [] [] yes, rfl, hy, rfl⟩, ⟨mk 253#8 [] [] no, rfl, hn, rfl⟩, ⟨mk 254#8 [] [] no, rfl, hn, rfl⟩⟩

theorem witness_JeqJneResults : JumpClausesMet (fun fl => fl.getLsbD 0) ∧ JumpClausesMet (fun fl => !fl.getLsbD 0) :=
  ⟨jumpClausesMet 1#8 2#8 rfl rfl, jumpClausesMet 0#8 1#8 rfl rfl⟩

theorem witness_JgtJltResults : JumpClausesMet (fun fl => fl.getLsbD 1) ∧ JumpClausesMet (fun fl => fl.getLsbD 2) :=
  ⟨jumpClausesMet 2#8 4#8 rfl rfl, jumpClausesMet 4#8 2#8 rfl rfl⟩

theorem witness_JgeJleResults :
    JumpClausesMet (fun fl => fl.getLsbD 1 || fl.getLsbD 0) ∧ JumpClausesMet (fun fl => fl.getLsbD 2 || fl.getLsbD 0) :=
  ⟨jumpClausesMet 1#8 0#8 rfl rfl, jumpClausesMet 1#8 0#8 rfl rfl⟩

theorem witness_CallResult :
    (∃ s : State, s.status = .running ∧ s.pc.toNat + 2 = 255) ∧ (∃ s : State, s.status = .running ∧ s.pc.toNat + 2 = 256) :=
  ⟨⟨bare 253#8 [], rfl, by decide⟩, ⟨bare 254#8 [], rfl, by decide⟩⟩

theorem witness_RetResult : (bare 255#8 [(7, 255#8)]).status = .running := rfl
theorem witness_HltHalts : ({ State.reset with status := .halted } : State).status = .halted := rfl

theorem witness_NopResult :
    (∃ s : State, s.status = .running ∧ s.pc.toNat = 254) ∧ (∃ s : State, s.status = .running ∧ s.pc.toNat = 255) :=
  ⟨⟨bare 254#8 [], rfl, by decide⟩, ⟨bare 255#8 [], rfl, by decide⟩⟩

theorem witness_PrnPraResults : ∃ s : State, roomFor 2 s := ⟨_, room2⟩

theorem witness_BadRegisterOperandFaults :
    (Instr.add 8#8 9#8).regOperands.find? (fun x => decide (7 < x.toNat)) = some 8#8 ∧
    (Instr.add 7#8 255#8).regOperands.find? (fun x => decide (7 < x.toNat)) = some 255#8 ∧
    (Instr.jeq 8#8).regOperands.find? (fun x => decide (7 < x.toNat)) = some 8#8 := by decide

theorem witness_AdvanceFaultKeepsEffects :
    ∃ (s t : State) (i : Instr), s.status = .running ∧ (decodeFields i.opcode).setsPc = false ∧
      exec i { s with pc := 0x00#8 } = .next t ∧ t.status = .running ∧ s.pc.toNat + (encode i).length = 256 := by
  obtain ⟨t, ht, hs⟩ := seen_eq_some (o := exec (.ldi 1#8 7#8) { bare 253#8 [] with pc := 0x00#8 })
    (f := fun t => t.status) (v := .running) (by decide)
  exact ⟨bare 253#8 [], t, .ldi 1#8 7#8, rfl, by decide, ht, hs, by decide⟩

theorem witness_WellFormedInstructionsDoNotFault :
    ∃ (s : State) (i : Instr), s.status = .running ∧ i.wellFormed = true ∧ s.pc.toNat + (encode i).length = 255 ∧
      (∀ (a : Byte) (rb : RegIdx), i = .div a (regByte rb) ∨ i = .mod a (regByte rb) → s.reg rb ≠ 0x00#8) := by
  refine ⟨bare 252#8 [(1, 1#8)], .div 0#8 1#8, rfl, by decide, by decide, ?_⟩
  intro a rb h
  have e : regByte rb = 1#8 := by
    rcases h with h | h
    · injection h with _ h
      exact h.symm
    · cases h
  have only1 : ∀ r : RegIdx, regByte r = 1#8 → r = 1 := by decide
  rw [only1 rb e]
  decide

theorem witness_RegisterFrame :
    (∃ (s t : State) (q : RegIdx), exec (.cmp 7#8 0#8) s = .next t ∧ q = 7) ∧
    (∃ (s t : State) (q : RegIdx), exec (.ldi 0#8 1#8) s = .next t ∧ (0#8 : Byte) ≠ regByte q ∧ q = 7) ∧
    (∃ (s t : State) (q : RegIdx), exec (.push 0#8) s = .next t ∧ q ≠ 7) ∧
    (∃ (s t : State) (q : RegIdx), exec (.pop 0#8) s = .next t ∧ q ≠ 7 ∧ (0#8 : Byte) ≠ regByte q) := by
  obtain ⟨t1, h1⟩ := exec_total (.cmp 7#8 0#8) State.reset
  obtain ⟨t2, h2⟩ := exec_total (.ldi 0#8 1#8) State.reset
  obtain ⟨t3, h3⟩ := exec_total (.push 0#8) State.reset
  obtain ⟨t4, h4⟩ := exec_total (.pop 0#8) State.reset
  exact ⟨⟨_, t1, 7, h1, rfl⟩, ⟨_, t2, 7, h2, by decide, rfl⟩, ⟨_, t3, 6, h3, by decide⟩, ⟨_, t4, 6, h4, by decide, by decide⟩⟩

theorem witness_MemoryFrame :
    (∃ (s t : State), (∀ a b : Byte, Instr.pop 0#8 ≠ .st a b ∧ Instr.pop 0#8 ≠ .push a ∧ Instr.pop 0#8 ≠ .call a) ∧
      exec (.pop 0#8) s = .next t) ∧
    (∃ (s t : State) (x : Byte), exec (.st 1#8 0#8) s = .next t ∧
      (∀ ra : RegIdx, 1#8 = regByte ra → x ≠ s.reg ra) ∧ x = 0#8) ∧
    (∃ (s t : State) (x : Byte), (exec (.push 0#8) s = .next t ∨ exec (.call 0#8) s = .next t) ∧
      x ≠ s.reg 7 - 1#8 ∧ x = s.reg 7) := by
  obtain ⟨t1, h1⟩ := exec_total (.pop 0#8) State.reset
  obtain ⟨t2, h2⟩ := exec_total (.st 1#8 0#8) (bare 0#8 [(1, 1#8)])
  obtain ⟨t3, h3⟩ := exec_total (.push 0#8) (bare 0#8 [(7, 0#8)])
  refine ⟨⟨_, t1, fun a b => ⟨nofun, nofun, nofun⟩, h1⟩, ⟨_, t2, 0#8, h2, ?_, rfl⟩, ⟨_, t3, 0#8, .inl h3, by decide, by decide⟩⟩
  decide

theorem witness_StoredByteReadsBack :
    (∃ s t : State, roomFor 3 s ∧ Memory.wf s.mem = true ∧ exec (.st (regByte 0) (regByte 1)) s = .next t ∧ t.pc = s.reg 0) ∧
    (∃ s t : State, roomFor 2 s ∧ Memory.wf s.mem = true ∧ exec (.push (regByte 7)) s = .next t ∧ t.pc = s.reg 7 - 1#8) ∧
    (∃ s t : State, roomFor 2 s ∧ Memory.wf s.mem = true ∧ exec (.call (regByte 7)) s = .next t ∧ t.pc = s.reg 7 - 1#8) := by
  obtain ⟨t1, h1, k1⟩ := seen_eq_some (o := exec (.st (regByte 0) (regByte 1)) (bare 252#8 [(0, 255#8)]))
    (f := fun t => t.pc) (v := 255#8) (by decide)
  obtain ⟨t2, h2, k2⟩ := seen_eq_some (o := exec (.push (regByte 7)) (bare 253#8 [(7, 0#8)]))
    (f := fun t => t.pc) (v := 255#8) (by decide)
  obtain ⟨t3, h3, k3⟩ := seen_eq_some (o := exec (.call (regByte 7)) (bare 253#8 [(7, 0#8)]))
    (f := fun t => t.pc) (v := 255#8) (by decide)
  exact ⟨⟨_, t1, ⟨rfl, by decide⟩, rfl, h1, k1.trans (by decide)⟩, ⟨_, t2, ⟨rfl, by decide⟩, rfl, h2, k2.trans (by decide)⟩,
    ⟨_, t3, ⟨rfl, by decide⟩, rfl, h3, k3.trans (by decide)⟩⟩

theorem witness_FlagsAreSetOnlyByCompare :
    ((∀ a b : Byte, Instr.inc 0#8 ≠ .cmp a b) ∧ ∃ t : State, exec (.inc 0#8) State.reset = .next t) ∧
    (∃ t : State, exec (.cmp (regByte 0) (regByte 7)) State.reset = .next t) ∧
    (∀ a b : Byte, Instr.inc 0#8 ≠ .cmp a b ∧ Instr.inc 0#8 ≠ .jeq a ∧ Instr.inc 0#8 ≠ .jne a ∧ Instr.inc 0#8 ≠ .jgt a ∧
      Instr.inc 0#8 ≠ .jge a ∧ Instr.inc 0#8 ≠ .jlt a ∧ Instr.inc 0#8 ≠ .jle a) :=
  ⟨⟨fun _ _ => nofun, exec_total _ _⟩, exec_total _ _, fun _ _ => ⟨nofun, nofun, nofun, nofun, nofun, nofun, nofun⟩⟩

theorem witness_OnlyCmpAmongAluWritesFlags :
    (∃ t : State, exec (.add 0#8 7#8) State.reset = .next t) ∧
    (∃ t : State, exec (.cmp (regByte 0) (regByte 7)) State.reset = .next t) ∧
    (∃ t : State, exec (.cmp 0#8 8#8) State.reset = .next t) := ⟨exec_total _ _, exec_total _ _, exec_total _ _⟩

theorem witness_OutputGrowsOnlyByPrint :
    (∃ t : State, exec (.prn (regByte 7)) State.reset = .next t) ∧ (∃ t : State, exec .nop State.reset = .next t) :=
  ⟨exec_total _ _, exec_total _ _⟩

theorem witness_OnlyHltHalts :
    (∃ t : State, exec .hlt State.reset = .next t) ∧
    (∃ (i : Instr) (t : State), exec i State.reset = .next t ∧ i ≠ .hlt) :=
  ⟨exec_total _ _, .nop, (exec_total .nop State.reset).choose, (exec_total .nop State.reset).choose_spec, nofun⟩

theorem reset_inv : State.reset.Inv := ⟨rfl, rfl, rfl⟩

/-- The step of a running state whose fetch succeeds. -/
theorem step_next_of_fetch {s : State} {i : Instr} (hs : s.status = .running) (h : s.fetchInstr = .ok i) :
    ∃ t, step s = .next t := by
  obtain ⟨t, ht⟩ := exec_total i s
  exact ⟨t, (step_of_fetch hs h).trans ht⟩

theorem witness_StepKeepsInvariant : ∃ s t : State, s.Inv ∧ step s = .next t := by
  obtain ⟨t, ht⟩ := step_next_of_fetch (s := State.reset) (i := .nop) rfl rfl
  exact ⟨_, t, reset_inv, ht⟩

theorem witness_ResetAndLaunchMeetInvariant : ∃ s : State, State.launch [0x82#8, 0#8, 8#8] = some s := ⟨_, rfl⟩

/-- A step that takes a fault, for each of the four kinds. -/
theorem faulting_steps :
    (∃ s t : State, step s = .next t ∧ t.status = .faulted (.invalidOpcode 0xFF#8)) ∧
    (∃ s t : State, step s = .next t ∧ t.status = .faulted .divideByZero) ∧
    (∃ s t : State, step s = .next t ∧ t.status = .faulted (.addressOutOfRange 256) ∧ s.pc.toNat = 253) ∧
    (∃ s t : State, step s = .next t ∧ t.status = .faulted (.invalidRegisterIndex 8#8)) := by
  obtain ⟨t1, h1, k1⟩ := seen_eq_some (o := step (start 0#8 [0xFF#8] [] [] 0#8)) (f := fun t => t.status)
    (v := .faulted (.invalidOpcode 0xFF#8)) (by decide)
  obtain ⟨t2, h2, k2⟩ := seen_eq_some (o := step (start 0#8 [0xA3#8, 0#8, 1#8] [] [] 0#8)) (f := fun t => t.status)
    (v := .faulted .divideByZero) (by decide)
  obtain ⟨t3, h3, k3⟩ := seen_eq_some (o := step (start 253#8 [0x82#8, 0#8, 1#8] [] [] 0#8)) (f := fun t => t.status)
    (v := .faulted (.addressOutOfRange 256)) (by decide)
  obtain ⟨t4, h4, k4⟩ := seen_eq_some (o := step (start 0#8 [0x45#8, 8#8] [] [] 0#8)) (f := fun t => t.status)
    (v := .faulted (.invalidRegisterIndex 8#8)) (by decide)
  exact ⟨⟨_, t1, h1, k1⟩, ⟨_, t2, h2, k2⟩, ⟨_, t3, h3, k3, by decide⟩, ⟨_, t4, h4, k4⟩⟩

theorem witness_OnlyTheseCauseFaults :
    (∃ s t : State, step s = .next t ∧ t.status = .faulted (.invalidOpcode 0xFF#8)) ∧
    (∃ s t : State, step s = .next t ∧ t.status = .faulted .divideByZero) ∧
    (∃ s t : State, step s = .next t ∧ t.status = .faulted (.addressOutOfRange 256) ∧ s.pc.toNat = 253) ∧
    (∃ s t : State, step s = .next t ∧ t.status = .faulted (.invalidRegisterIndex 8#8)) := faulting_steps

/-- The last two clauses' premises: a CALL at 254 (PC-set bit 1), and an LDI at 254 whose second operand lies at 256. -/
theorem witness_FaultsArePrecise :
    (∃ s t : State, step s = .next t ∧ t.status = .faulted .divideByZero) ∧
    (∃ s t : State, step s = .next t ∧ t.status = .faulted (.addressOutOfRange 256) ∧
      (decodeFields (s.readByte s.pc)).setsPc = true) ∧
    (∃ s t : State, step s = .next t ∧ t.status = .faulted (.addressOutOfRange 256) ∧
      s.pc.toNat + (decodeFields (s.readByte s.pc)).operandCount.toNat = 256) := by
  obtain ⟨t2, h2, k2⟩ := seen_eq_some (o := step (start 254#8 [0x50#8, 1#8] [] [] 0#8)) (f := fun t => t.status)
    (v := .faulted (.addressOutOfRange 256)) (by decide)
  obtain ⟨t3, h3, k3⟩ := seen_eq_some (o := step (start 254#8 [0x82#8, 1#8] [] [] 0#8)) (f := fun t => t.status)
    (v := .faulted (.addressOutOfRange 256)) (by decide)
  exact ⟨faulting_steps.2.1, ⟨_, t2, h2, k2, by decide⟩, ⟨_, t3, h3, k3, by decide⟩⟩

theorem witness_IntIretRunForEver :
    (∃ s : State, s.status = .running ∧ s.fetchInstr = .ok (.int 0xFF#8)) ∧
    (∃ s : State, s.status = .running ∧ s.fetchInstr = .ok .iret) :=
  ⟨⟨start 254#8 [0x52#8, 0xFF#8] [] [] 0#8, rfl, rfl⟩, ⟨start 255#8 [0x13#8] [] [] 0#8, rfl, rfl⟩⟩

theorem witness_LaunchPlacesImage :
    (List.replicate 256 0x01#8).length ≤ 256 ∧ (List.replicate 256 0x01#8)[255]? = some 0x01#8 ∧
    ([] : List Byte).length ≤ (255#8 : Byte).toNat ∧ 256 < (List.replicate 257 0x01#8).length :=
  ⟨le_of_eq List.length_replicate, List.getElem?_replicate_of_lt (by decide), by decide, by rw [List.length_replicate]; decide⟩

theorem witness_PushThenPopRestores :
    ∃ (s : State) (ra rb : RegIdx), s.status = .running ∧ Memory.wf s.mem = true ∧ s.pc.toNat + 4 = 255 ∧ ra ≠ 7 ∧ rb ≠ 7 :=
  ⟨bare 251#8 [(7, 0#8)], 0, 6, rfl, rfl, by decide, by decide, by decide⟩

theorem witness_CallThenRetResumes :
    ∃ (s t u : State), s.status = .running ∧ Memory.wf s.mem = true ∧ s.pc.toNat + 2 = 255 ∧
      exec (.call (regByte 1)) s = .next t ∧ u.status = .running ∧ u.reg 7 = t.reg 7 ∧
      u.readByte (t.reg 7) = t.readByte (t.reg 7) := by
  obtain ⟨t, ht, hs⟩ := seen_eq_some (o := exec (.call (regByte 1)) (bare 253#8 [(1, 0x18#8)])) (f := fun t => t.status)
    (v := .running) (by decide)
  exact ⟨bare 253#8 [(1, 0x18#8)], t, t, rfl, rfl, by decide, ht, hs, rfl, rfl⟩

theorem witness_ArithmeticLaws :
    ∃ (s : State) (ra rb : RegIdx), s.status = .running ∧ s.pc.toNat + 6 = 255 ∧ ra ≠ rb ∧ s.reg rb ≠ 0x00#8 ∧
      (s.reg ra).toNat * (s.reg rb).toNat = 255 :=
  ⟨bare 249#8 [(0, 85#8), (1, 3#8)], 0, 1, rfl, by decide, by decide, by decide, by decide⟩

end Sys2Proof.Tests
end

section
/-! Who writes `fl` and who reads it (spec/10_state.md R19). The key fact is that overwriting `fl` commutes with every
instruction that is neither CMP nor a conditional jump; that such an instruction leaves `fl` alone is the case where `fl` is
overwritten by the value it already holds. -/

namespace Sys2Proof.Machine

/-- The instructions R19 lets write or read `fl`: CMP and the six conditional jumps. -/
def usesFlags : Instr → Bool
  | .cmp _ _ | .jeq _ | .jne _ | .jgt _ | .jge _ | .jlt _ | .jle _ => true
  | _ => false

theorem usesFlags_iff (i : Instr) :
    usesFlags i = true ↔ ∃ a b : Byte, i = .cmp a b ∨ i = .jeq a ∨ i = .jne a ∨ i = .jgt a ∨ i = .jge a ∨ i = .jlt a ∨
      i = .jle a := by
  cases i <;> simp [usesFlags]

/-! ## Overwriting `fl` before or after an operation -/

theorem State.advance_setFl (s : State) (f op : Byte) : (s.setFl f).advance op = (s.advance op).setFl f := by
  unfold State.advance
  rw [State.setFl_status, State.setFl_pc]
  split
  · cases pcPlus s.pc ((decodeFields op).operandCount.toNat + 1) <;> rfl
  · rfl

theorem withReg_map {a : Byte} {g : State → State} {k k' : RegIdx → HandlerResult} (h : ∀ ra, k' ra = (k ra).map g) :
    withReg a k' = (withReg a k).map g := by
  rcases regIndex_cases a with ⟨ra, rfl, -⟩ | ⟨ha, -⟩
  · rw [withReg_regByte, withReg_regByte, h]
  · rw [withReg_of_gt ha, withReg_of_gt ha]
    rfl

theorem withRegs_map {a b : Byte} {g : State → State} {k k' : RegIdx → RegIdx → HandlerResult}
    (h : ∀ ra rb, k' ra rb = (k ra rb).map g) : withRegs a b k' = (withRegs a b k).map g :=
  withReg_map fun ra => withReg_map (h ra)

theorem aluApply_setFl {op : AluOp} (hop : op ≠ .cmp) (ra : RegIdx) (vb f : Byte) (s : State) :
    aluApply op ra vb (s.setFl f) = (aluApply op ra vb s).map (·.setFl f) := by
  rcases aluApply_cases op ra vb s with ⟨hd, rfl, he⟩ | ⟨hc, -⟩ | ⟨-, hd, he⟩
  · simp [aluApply, aluCore, hd, Except.map]
  · exact absurd hc hop
  · rw [he, aluApply_of_write hop hd]
    rfl

theorem aluRegReg_setFl {op : AluOp} (hop : op ≠ .cmp) (a b f : Byte) (s : State) :
    aluRegReg op a b (s.setFl f) = (aluRegReg op a b s).map (·.setFl f) :=
  withRegs_map fun ra rb => aluApply_setFl hop ra (s.reg rb) f s

theorem aluRegImm_setFl {op : AluOp} (hop : op ≠ .cmp) (a imm f : Byte) (s : State) :
    aluRegImm op a imm (s.setFl f) = (aluRegImm op a imm s).map (·.setFl f) :=
  withReg_map fun ra => aluApply_setFl hop ra imm f s

theorem aluReg_setFl {op : AluOp} (hop : op ≠ .cmp) (a f : Byte) (s : State) :
    aluReg op a (s.setFl f) = (aluReg op a s).map (·.setFl f) :=
  withReg_map fun ra => aluApply_setFl hop ra 0x00#8 f s

/-- A handler that does not use the flags carries a new `fl` through, and nothing else differs. -/
theorem handlerOf_setFl {i : Instr} (hi : usesFlags i = false) (s : State) (f : Byte) :
    handlerOf i (s.setFl f) = (handlerOf i s).map (·.setFl f) := by
  cases i with
  | nop | hlt | ret | iret | int => rfl
  | push | pop | prn | pra | jmp | ldi => exact withReg_map fun _ => rfl
  | ld | st => exact withRegs_map fun _ _ => rfl
  | call =>
    refine withReg_map fun ra => ?_
    rw [State.setFl_pc]
    cases pcPlus s.pc 2 <;> rfl
  | inc | dec | not => exact aluReg_setFl (by decide) _ f s
  | addi => exact aluRegImm_setFl (by decide) _ _ f s
  | add | sub | mul | div | mod | and | or | xor | shl | shr => exact aluRegReg_setFl (by decide) _ _ f s
  | cmp | jeq | jne | jgt | jge | jlt | jle => cases hi

/-! ## The three kinds of instruction -/

theorem exec_setFl {i : Instr} (hi : usesFlags i = false) {s t : State} (f : Byte) (h : exec i s = .next t) :
    exec i (s.setFl f) = .next (t.setFl f) := by
  rcases exec_cases h with ⟨u, hu, rfl⟩ | ⟨r, hr, rfl⟩
  · have hf : handlerOf i (s.setFl f) = .ok (u.setFl f) := by rw [handlerOf_setFl hi, hu]; rfl
    rw [exec_of_ok hf, State.advance_setFl]
  · have hf : handlerOf i (s.setFl f) = .error r := by rw [handlerOf_setFl hi, hr]; rfl
    exact exec_of_error hf

theorem exec_fl_of_not_usesFlags {i : Instr} (hi : usesFlags i = false) {s t : State} (h : exec i s = .next t) :
    t.fl = s.fl := by
  have hsame : exec i s = .next (t.setFl s.fl) := exec_setFl hi s.fl h
  rw [h] at hsame
  injection hsame with ht
  exact (congrArg State.fl ht).trans (State.setFl_fl t s.fl)

/-- An instruction whose handler is a conditional jump leaves `fl` as it was. -/
theorem exec_fl_of_jumpIf {i : Instr} {taken : Bool} {a : Byte} {s t : State} (hi : handlerOf i s = jumpIf taken a s)
    (h : exec i s = .next t) : t.fl = s.fl := by
  rcases exec_cases h with ⟨u, hu, rfl⟩ | ⟨r, -, rfl⟩
  · obtain ⟨p, rfl⟩ := jumpIf_eq_ok (hi.symm.trans hu)
    rw [State.advance_fl, State.setPc_fl]
  · exact State.raise_fl s r

theorem exec_cmp_regByte (ra rb : RegIdx) (s : State) :
    exec (.cmp (regByte ra) (regByte rb)) s =
      .next ((s.setFl (compareFlags (s.reg ra) (s.reg rb))).advance (Instr.cmp (regByte ra) (regByte rb)).opcode) :=
  exec_of_ok (withRegs_regByte ra rb _)

/-- Every instruction but CMP leaves `fl` unchanged. -/
theorem exec_fl_of_ne_cmp {i : Instr} (hi : ∀ a b : Byte, i ≠ .cmp a b) {s t : State} (h : exec i s = .next t) :
    t.fl = s.fl := by
  cases hu : usesFlags i with
  | false => exact exec_fl_of_not_usesFlags hu h
  | true =>
    obtain ⟨a, b, hcmp | hjump⟩ := (usesFlags_iff i).mp hu
    · exact absurd hcmp (hi a b)
    · rcases hjump with rfl | rfl | rfl | rfl | rfl | rfl <;> exact exec_fl_of_jumpIf rfl h

/-- Settles O44: CMP writes one of its three values over whatever `fl` held; the conditional jumps write only `pc`; all other
instructions commute with overwriting `fl`. -/
theorem flagsAreSetOnlyByCompare : Obligations.FlagsAreSetOnlyByCompare := by
  unfold Obligations.FlagsAreSetOnlyByCompare
  refine ⟨fun i s t hi h => exec_fl_of_ne_cmp hi h, fun ra rb s t f h => ?_, fun i s t f hi h => ?_, rfl⟩
  · rw [exec_cmp_regByte] at h
    injection h with ht
    subst ht
    rw [State.advance_fl, State.setFl_fl]
    exact ⟨compareFlags_cases _ _, exec_cmp_regByte ra rb (s.setFl f)⟩
  · have hu : usesFlags i = false := by
      rw [Bool.eq_false_iff, ne_eq, usesFlags_iff]
      rintro ⟨a, b, hab⟩
      obtain ⟨h1, h2, h3, h4, h5, h6, h7⟩ := hi a b
      simp [h1, h2, h3, h4, h5, h6, h7] at hab
    exact exec_setFl hu f h

end Sys2Proof.Machine
end

section
/-! The length of an instruction is 1 + op[7:6] (spec/30_encoding.md R52). The decoder reads back the encoding of the instruction
it answers, so the fetched byte is that instruction's opcode; the handler of an instruction with a clear PC-set bit leaves `pc`
at the instruction, so only the dispatcher's advance moves it. -/

namespace Sys2Proof

/-! ## What the decoder reads -/

/-- Whatever operand bytes the shape is given, the instruction it makes is encoded as `op` and those bytes. -/
def Shape.Encodes (op : Byte) : Shape → Prop
  | .f0 i => encode i = [op]
  | .f1 mk => ∀ a, encode (mk a) = [op, a]
  | .f2 mk => ∀ a b, encode (mk a b) = [op, a, b]

theorem opcodeMap_encodes : ∀ row ∈ opcodeMap, row.2.Encodes row.1 := by
  simp [opcodeMap, opcodeMap0, opcodeMap1, opcodeMap2, Shape.Encodes, encode, Instr.opcode, Instr.operandBytes]

theorem Shape.takeOperands_eq_ok {op : Byte} {sh : Shape} (hsh : sh.Encodes op) {bs : List Byte} {i : Instr}
    {rest : List Byte} (h : sh.takeOperands bs = .ok (i, rest)) : op :: bs = encode i ++ rest := by
  match sh, bs with
  | .f0 _, _ => cases h; rw [hsh]; rfl
  | .f1 _, a :: _ => cases h; rw [hsh a]; rfl
  | .f2 _, a :: b :: _ => cases h; rw [hsh a b]; rfl
  | .f1 _, [] | .f2 _, [] | .f2 _, [_] => cases h

theorem decode_eq_ok {bs : List Byte} {i : Instr} {rest : List Byte} (h : decode bs = .ok (i, rest)) :
    bs = encode i ++ rest := by
  cases bs with
  | nil => cases h
  | cons op bs =>
    cases hsh : recognise op with
    | none => simp [decode, hsh] at h
    | some sh =>
      simp only [decode, hsh] at h
      exact Shape.takeOperands_eq_ok (opcodeMap_encodes (op, sh) (lookupOpcode_mem hsh)) h

end Sys2Proof

namespace Sys2Proof.Machine

/-- The byte at `pc` is the opcode of the fetched instruction. -/
theorem State.opcode_of_fetchInstr {s : State} {i : Instr} (h : s.fetchInstr = .ok i) : i.opcode = s.readByte s.pc := by
  unfold State.fetchInstr at h
  split at h
  · rename_i j rest hd
    cases h
    exact (List.cons.inj (decode_eq_ok hd)).1.symm
  · cases h
  · cases h

/-! ## What moves `pc` -/

theorem aluApply_pc {op : AluOp} {ra : RegIdx} {vb : Byte} {s u : State} (h : aluApply op ra vb s = .ok u) :
    u.pc = s.pc := by
  rcases aluApply_eq_ok h with ⟨-, rfl⟩ | ⟨-, rfl⟩ <;> rfl

theorem aluRegReg_pc {op : AluOp} {a b : Byte} {s u : State} (h : aluRegReg op a b s = .ok u) : u.pc = s.pc := by
  obtain ⟨ra, rb, -, -, h⟩ := withRegs_eq_ok h
  exact aluApply_pc h

theorem aluRegImm_pc {op : AluOp} {a imm : Byte} {s u : State} (h : aluRegImm op a imm s = .ok u) : u.pc = s.pc := by
  obtain ⟨ra, -, h⟩ := withReg_eq_ok h
  exact aluApply_pc h

theorem aluReg_pc {op : AluOp} {a : Byte} {s u : State} (h : aluReg op a s = .ok u) : u.pc = s.pc := by
  obtain ⟨ra, -, h⟩ := withReg_eq_ok h
  exact aluApply_pc h

/-- A handler whose opcode has a clear PC-set bit leaves `pc` alone (R77). -/
theorem handlerOf_pc {i : Instr} (hp : (decodeFields i.opcode).setsPc = false) {s u : State}
    (h : handlerOf i s = .ok u) : u.pc = s.pc := by
  cases i with
  | nop | hlt => cases h; rfl
  | push | pop | prn | pra | ldi =>
    obtain ⟨ra, -, h⟩ := withReg_eq_ok h
    cases h
    rfl
  | ld | st =>
    obtain ⟨ra, rb, -, -, h⟩ := withRegs_eq_ok h
    cases h
    rfl
  | inc | dec | not => exact aluReg_pc h
  | addi => exact aluRegImm_pc h
  | add | sub | mul | div | mod | cmp | and | or | xor | shl | shr => exact aluRegReg_pc h
  | ret | iret | call | int | jmp | jeq | jne | jgt | jlt | jle | jge =>
    exact absurd ((setsPc_opcode _).mpr (by simp)) (Bool.eq_false_iff.mp hp)

/-- An advance with a clear PC-set bit that leaves the machine running has moved `pc` by the operand count and one. -/
theorem State.advance_pc_toNat {s : State} {op : Byte} (hp : (decodeFields op).setsPc = false)
    (hr : (s.advance op).status = .running) :
    (s.advance op).pc.toNat = s.pc.toNat + ((decodeFields op).operandCount.toNat + 1) := by
  rcases s.advance_cases op with ⟨he, hs | hs⟩ | ⟨-, -, hle, he⟩ | ⟨-, -, -, he⟩
  · exact absurd (he ▸ hr) hs
  · exact absurd hs (by simp [hp])
  · rw [he, State.setPc_pc, BitVec.toNat_add, BitVec.toNat_ofNat, Nat.add_mod_mod, Nat.mod_eq_of_lt (by omega)]
  · rw [he] at hr
    cases hr

theorem exec_pc_toNat {i : Instr} (hp : (decodeFields i.opcode).setsPc = false) {s t : State} (h : exec i s = .next t)
    (hr : t.status = .running) : t.pc.toNat = s.pc.toNat + ((decodeFields i.opcode).operandCount.toNat + 1) := by
  rcases exec_cases h with ⟨u, hu, rfl⟩ | ⟨r, -, rfl⟩
  · rw [State.advance_pc_toNat hp hr, handlerOf_pc hp hu]
  · cases hr

/-- Settles O2: the decoder reads `encode i`, whose operand bytes the opcode counts; a step runs the instruction whose opcode
stands at `pc`, and only the advance moves `pc`. -/
theorem lengthComesFromOpcodeBits : Obligations.LengthComesFromOpcodeBits := by
  unfold Obligations.LengthComesFromOpcodeBits
  refine ⟨fun bs i rest h => ⟨i.opcode, i.operandBytes, decode_eq_ok h, (operandCount_opcode i).symm⟩,
    fun s t hp h hr => ?_⟩
  obtain ⟨-, ⟨i, hi, he⟩ | ⟨r, -, rfl⟩⟩ := step_cases h
  · rw [← State.opcode_of_fetchInstr hi] at hp ⊢
    exact exec_pc_toNat hp he hr
  · cases hr

end Sys2Proof.Machine
end

section
/-! The opcode byte as the number its four fields write (spec/40_fetch_decode_dispatch.md R70): one value lemma per field, each a
quotient and a remainder by powers of two, and the recomposition that follows from them. -/

namespace Sys2Proof

/-! ## The value of each field -/

theorem decodeFields_operandCount_toNat (op : Byte) : (decodeFields op).operandCount.toNat = op.toNat / 64 := by
  have hlt : op.toNat / 64 < 4 := Nat.div_lt_of_lt_mul op.isLt
  calc (op.extractLsb' 6 2).toNat
    _ = op.toNat / 64 % 4 := by rw [BitVec.extractLsb'_toNat, Nat.shiftRight_eq_div_pow]
    _ = op.toNat / 64 := Nat.mod_eq_of_lt hlt

theorem decodeFields_isAlu_toNat (op : Byte) : (decodeFields op).isAlu.toNat = op.toNat / 32 % 2 :=
  Nat.toNat_testBit op.toNat 5

theorem decodeFields_setsPc_toNat (op : Byte) : (decodeFields op).setsPc.toNat = op.toNat / 16 % 2 :=
  Nat.toNat_testBit op.toNat 4

theorem decodeFields_id_toNat (op : Byte) : (decodeFields op).id.toNat = op.toNat % 16 :=
  BitVec.extractLsb'_toNat 0 4 op

/-! ## The two marker bits, and the whole byte -/

theorem decodeFields_isAlu_iff (op : Byte) : (decodeFields op).isAlu = true ↔ op.toNat / 32 % 2 = 1 := by
  rw [← decodeFields_isAlu_toNat, Bool.toNat_eq_one]

theorem decodeFields_setsPc_iff (op : Byte) : (decodeFields op).setsPc = true ↔ op.toNat / 16 % 2 = 1 := by
  rw [← decodeFields_setsPc_toNat, Bool.toNat_eq_one]

/-- No bit of the opcode byte is lost: each quotient is split by the next field's width. -/
theorem toNat_eq_decodeFields (op : Byte) :
    op.toNat = (decodeFields op).operandCount.toNat * 64 + (decodeFields op).isAlu.toNat * 32 +
      (decodeFields op).setsPc.toNat * 16 + (decodeFields op).id.toNat := by
  rw [decodeFields_operandCount_toNat, decodeFields_isAlu_toNat, decodeFields_setsPc_toNat, decodeFields_id_toNat]
  omega

/-- Settles O1: the value lemma of each field, their recomposition, and the two worked opcodes of R70 by evaluation. -/
theorem decoderCutsOpcodeFields : Obligations.DecoderCutsOpcodeFields := by
  unfold Obligations.DecoderCutsOpcodeFields
  refine ⟨fun op => ⟨?_, ?_, ?_, ?_, ?_⟩, rfl, rfl⟩
  · exact decodeFields_operandCount_toNat op
  · exact decodeFields_isAlu_iff op
  · exact decodeFields_setsPc_iff op
  · exact decodeFields_id_toNat op
  · exact toNat_eq_decodeFields op

end Sys2Proof
end

section
/-! The flags and registers of the ALU instructions (spec/41_alu.md R118). CMP's handler writes only `fl` or faults, and neither
a fault nor the dispatcher's advance writes a register, so no register changes whatever the operand bytes are. -/

namespace Sys2Proof.Machine

/-- A compare whose handler does not fault writes its comparison to `fl`, and nothing else. -/
theorem aluRegReg_cmp_eq_ok {a b : Byte} {s u : State} (h : aluRegReg .cmp a b s = .ok u) :
    ∃ ra rb, u = s.setFl (compareFlags (s.reg ra) (s.reg rb)) := by
  obtain ⟨ra, rb, -, -, h⟩ := withRegs_eq_ok h
  rcases aluApply_eq_ok h with ⟨-, hu⟩ | ⟨hne, -⟩
  · exact ⟨ra, rb, hu⟩
  · exact absurd rfl hne

/-- CMP leaves every register unchanged, whatever its operand bytes: a bad byte or a full memory only takes a fault. -/
theorem exec_cmp_reg {a b : Byte} {s t : State} (h : exec (.cmp a b) s = .next t) (q : RegIdx) : t.reg q = s.reg q := by
  rcases exec_cases h with ⟨u, hu, rfl⟩ | ⟨r, -, rfl⟩
  · obtain ⟨ra, rb, rfl⟩ := aluRegReg_cmp_eq_ok hu
    rw [State.advance_reg, State.setFl_reg]
  · exact State.raise_reg s r q

/-- CMP on valid registers writes their comparison to `fl`, also when its advance faults at the top of memory. -/
theorem exec_cmp_fl {ra rb : RegIdx} {s t : State} (h : exec (.cmp (regByte ra) (regByte rb)) s = .next t) :
    t.fl = compareFlags (s.reg ra) (s.reg rb) := by
  rw [exec_cmp_regByte] at h
  injection h with ht
  rw [← ht, State.advance_fl, State.setFl_fl]

/-- Settles O45: none of the 14 listed instructions is CMP, and only CMP changes `fl`; what CMP writes to `fl`, and that it
keeps the registers, are its own two lemmas. -/
theorem onlyCmpAmongAluWritesFlags : Obligations.OnlyCmpAmongAluWritesFlags := by
  unfold Obligations.OnlyCmpAmongAluWritesFlags
  refine ⟨fun a b s t i hi h => ?_, fun ra rb s t h => ?_, fun a b s t q h => exec_cmp_reg h q⟩
  · have hne : ∀ c d : Byte, i ≠ .cmp c d := by
      rintro c d rfl
      simp at hi
    exact exec_fl_of_ne_cmp hne h
  · exact exec_cmp_fl h

end Sys2Proof.Machine
end

section
/-! What is no fault (spec/60_exceptions.md R165). Said once: the three reasons for which a handler raises a fault (R162 to R164),
the status a handler leaves when it raises none, and that an advance with room keeps it. A well-formed instruction with room and
no zero divisor meets none of the reasons. -/

namespace Sys2Proof.Machine

/-! ## The faults a handler raises -/

/-- Why the handler of `i`, begun in `s`, raises a fault, and the record it leaves. -/
inductive HandlerFault (i : Instr) (s : State) : FaultRecord → Prop
  /-- A register operand byte exceeds 7 (R164). -/
  | badRegister {b : Byte} (mem : b ∈ i.regOperands) (gt : 7 < b.toNat) : HandlerFault i s (.invalidRegisterIndex b)
  /-- DIV or MOD with divisor 0 (R162). -/
  | zeroDivisor {a : Byte} {rb : RegIdx} (divides : i = .div a (regByte rb) ∨ i = .mod a (regByte rb))
      (zero : s.reg rb = 0x00#8) : HandlerFault i s .divideByZero
  /-- A conditional jump not taken, or a CALL, with no room for the address after its two bytes (R163). -/
  | noNextAddress (twoBytes : i.operandBytes.length = 1) (gt : 255 < s.pc.toNat + 2) :
      HandlerFault i s (.addressOutOfRange (s.pc.toNat + 2))

theorem HandlerFault.of_withReg {i : Instr} {s : State} {r : FaultRecord} {a : Byte} {k : RegIdx → HandlerResult}
    (ha : a ∈ i.regOperands) (h : withReg a k = .error r) (hk : ∀ ra, k ra = .error r → HandlerFault i s r) :
    HandlerFault i s r := by
  rcases withReg_eq_error h with ⟨hgt, rfl⟩ | ⟨ra, -, h⟩
  · exact .badRegister ha hgt
  · exact hk ra h

theorem HandlerFault.of_withRegs {i : Instr} {s : State} {r : FaultRecord} {a b : Byte}
    {k : RegIdx → RegIdx → HandlerResult} (ha : a ∈ i.regOperands) (hb : b ∈ i.regOperands)
    (h : withRegs a b k = .error r)
    (hk : ∀ ra rb, b = regByte rb → k ra rb = .error r → HandlerFault i s r) : HandlerFault i s r := by
  rcases withRegs_eq_error h with ⟨hgt, rfl⟩ | ⟨hgt, rfl⟩ | ⟨ra, rb, -, hrb, h⟩
  · exact .badRegister ha hgt
  · exact .badRegister hb hgt
  · exact hk ra rb hrb h

theorem HandlerFault.of_jumpIf {i : Instr} {s : State} {r : FaultRecord} {taken : Bool} {a : Byte}
    (ha : a ∈ i.regOperands) (hlen : i.operandBytes.length = 1) (h : jumpIf taken a s = .error r) : HandlerFault i s r := by
  rcases jumpIf_eq_error h with ⟨hgt, rfl⟩ | ⟨hgt, rfl⟩
  · exact .badRegister ha hgt
  · exact .noNextAddress hlen hgt

/-- An ALU operation that does not divide raises no fault. -/
theorem aluApply_ne_error {op : AluOp} (hop : aluDivides op = false) {ra : RegIdx} {vb : Byte} {s : State} {r : FaultRecord} :
    aluApply op ra vb s ≠ .error r := by
  intro h
  obtain ⟨-, hd, -⟩ := aluApply_eq_error h
  simp [hop] at hd

/-- Everything a handler can raise. -/
theorem handlerFault_of_error {i : Instr} {s : State} {r : FaultRecord} (h : handlerOf i s = .error r) :
    HandlerFault i s r := by
  cases i with
  | nop | hlt | ret | iret | int => cases h
  | push | pop | prn | pra | jmp | ldi => exact .of_withReg List.mem_cons_self h nofun
  | ld | st => exact .of_withRegs List.mem_cons_self (List.mem_cons_of_mem _ List.mem_cons_self) h nofun
  | call =>
    refine .of_withReg List.mem_cons_self h fun ra h => ?_
    rcases pcPlus_cases s.pc 2 with ⟨-, he⟩ | ⟨hgt, he⟩
    · simp [he] at h
    · simp only [he] at h
      cases h
      exact .noNextAddress rfl hgt
  | jeq | jne | jgt | jlt | jle | jge => exact .of_jumpIf List.mem_cons_self rfl h
  | inc | dec | not | addi =>
    exact .of_withReg List.mem_cons_self h fun _ h => absurd h (aluApply_ne_error rfl)
  | add | sub | mul | cmp | and | or | xor | shl | shr =>
    exact .of_withRegs List.mem_cons_self (List.mem_cons_of_mem _ List.mem_cons_self) h
      fun _ _ _ h => absurd h (aluApply_ne_error rfl)
  | div a | mod a =>
    refine .of_withRegs List.mem_cons_self (List.mem_cons_of_mem _ List.mem_cons_self) h fun ra rb hrb hk => ?_
    obtain ⟨rfl, -, hz⟩ := aluApply_eq_error hk
    exact .zeroDivisor (a := a) (by simp [hrb]) hz

/-- A well-formed instruction with room and no zero divisor meets none of the reasons. -/
theorem not_handlerFault {i : Instr} {s : State} {r : FaultRecord} (hwf : i.wellFormed = true)
    (hroom : s.pc.toNat + (encode i).length ≤ 255)
    (hdiv : ∀ (a : Byte) (rb : RegIdx), i = .div a (regByte rb) ∨ i = .mod a (regByte rb) → s.reg rb ≠ 0x00#8) :
    ¬HandlerFault i s r := by
  intro h
  cases h with
  | badRegister mem gt =>
    have hle := of_decide_eq_true (List.all_eq_true.mp hwf _ mem)
    omega
  | zeroDivisor divides zero => exact hdiv _ _ divides zero
  | noNextAddress twoBytes gt =>
    rw [encode, List.length_cons, twoBytes] at hroom
    omega

/-! ## The status an instruction leaves -/

theorem aluApply_status {op : AluOp} {ra : RegIdx} {vb : Byte} {s u : State} (h : aluApply op ra vb s = .ok u) :
    u.status = s.status := by
  rcases aluApply_eq_ok h with ⟨-, rfl⟩ | ⟨-, rfl⟩ <;> rfl

/-- A handler that raises no fault leaves the status alone, unless it is HLT's. -/
theorem handlerOf_status {i : Instr} {s u : State} (h : handlerOf i s = .ok u) :
    (i = .hlt ∧ u.status = .halted) ∨ (i ≠ .hlt ∧ u.status = s.status) := by
  cases i with
  | hlt => cases h; exact .inl ⟨rfl, rfl⟩
  | nop | ret | iret | int => cases h; exact .inr ⟨nofun, rfl⟩
  | push | pop | prn | pra | jmp | ldi =>
    obtain ⟨ra, -, h⟩ := withReg_eq_ok h
    cases h
    exact .inr ⟨nofun, rfl⟩
  | ld | st =>
    obtain ⟨ra, rb, -, -, h⟩ := withRegs_eq_ok h
    cases h
    exact .inr ⟨nofun, rfl⟩
  | call =>
    obtain ⟨ra, -, h⟩ := withReg_eq_ok h
    rcases pcPlus_cases s.pc 2 with ⟨-, he⟩ | ⟨-, he⟩
    · simp only [he] at h
      cases h
      exact .inr ⟨nofun, rfl⟩
    · simp [he] at h
  | jeq | jne | jgt | jlt | jle | jge =>
    obtain ⟨p, rfl⟩ := jumpIf_eq_ok h
    exact .inr ⟨nofun, rfl⟩
  | inc | dec | not | addi =>
    obtain ⟨ra, -, h⟩ := withReg_eq_ok h
    exact .inr ⟨nofun, aluApply_status h⟩
  | add | sub | mul | div | mod | cmp | and | or | xor | shl | shr =>
    obtain ⟨ra, rb, -, -, h⟩ := withRegs_eq_ok h
    exact .inr ⟨nofun, aluApply_status h⟩

/-- An advance with room leaves the status alone. -/
theorem State.advance_status {s : State} {op : Byte}
    (h : (decodeFields op).setsPc = false → s.pc.toNat + ((decodeFields op).operandCount.toNat + 1) ≤ 255) :
    (s.advance op).status = s.status := by
  rcases s.advance_cases op with ⟨he, -⟩ | ⟨-, -, -, he⟩ | ⟨-, hp, hgt, -⟩
  · rw [he]
  · rw [he, State.setPc_status]
  · exact absurd (h hp) (Nat.not_le.mpr hgt)

/-- Below the top of memory an instruction leaves the status its handler left: the advance has room, since a handler with a
clear PC-set bit has not moved `pc`. -/
theorem advance_status_of_room {i : Instr} {s u : State} (hu : handlerOf i s = .ok u)
    (hroom : s.pc.toNat + (encode i).length ≤ 255) : (u.advance i.opcode).status = u.status := by
  refine State.advance_status fun hp => ?_
  rw [encode_length] at hroom
  rw [handlerOf_pc hp hu]
  omega

/-- Settles O40: the handler meets no reason for a fault, so it leaves the machine running or halted, and the advance has
room. -/
theorem wellFormedInstructionsDoNotFault : Obligations.WellFormedInstructionsDoNotFault := by
  unfold Obligations.WellFormedInstructionsDoNotFault
  intro s i hs hwf hroom hdiv
  cases hu : handlerOf i s with
  | error r => exact absurd (handlerFault_of_error hu) (not_handlerFault hwf hroom hdiv)
  | ok u =>
    refine ⟨u.advance i.opcode, exec_of_ok hu, fun r => ?_⟩
    rw [advance_status_of_room hu hroom]
    rcases handlerOf_status hu with ⟨-, he⟩ | ⟨-, he⟩
    · simp [he]
    · simp [he, hs]

end Sys2Proof.Machine
end

section
/-! A byte at `pc` that is no opcode (spec/60_exceptions.md R161): every row of the opcode map encodes an instruction, so a byte
that is no instruction's opcode is not recognised, and the fetch raises it before it looks at any byte after it. -/

namespace Sys2Proof

theorem Shape.Encodes.exists_opcode {op : Byte} {sh : Shape} (h : sh.Encodes op) : ∃ i : Instr, i.opcode = op := by
  cases sh with
  | f0 i => exact ⟨i, (List.cons.inj h).1⟩
  | f1 mk => exact ⟨mk 0#8, (List.cons.inj (h 0#8)).1⟩
  | f2 mk => exact ⟨mk 0#8 0#8, (List.cons.inj (h 0#8 0#8)).1⟩

theorem recognise_eq_none {op : Byte} (h : ∀ i : Instr, i.opcode ≠ op) : recognise op = none := by
  cases hsh : recognise op with
  | none => rfl
  | some sh =>
    obtain ⟨i, hi⟩ := (opcodeMap_encodes (op, sh) (lookupOpcode_mem hsh)).exists_opcode
    exact absurd hi (h i)

/-- The decoder rejects a byte that is no opcode, whatever follows it. -/
theorem decode_of_no_opcode {op : Byte} (h : ∀ i : Instr, i.opcode ≠ op) (rest : List Byte) :
    decode (op :: rest) = .error (.invalidOpcode op) := by
  simp [decode, recognise_eq_none h]

end Sys2Proof

namespace Sys2Proof.Machine

theorem State.fetchInstr_of_no_opcode {s : State} (h : ∀ i : Instr, i.opcode ≠ s.readByte s.pc) :
    s.fetchInstr = .error (.invalidOpcode (s.readByte s.pc)) := by
  simp [State.fetchInstr, State.fetchBytes, decode_of_no_opcode h]

/-- Settles O7: the fetch raises the byte, and taking a fault writes only the status. -/
theorem stepRaisesInvalidOpcode : Obligations.StepRaisesInvalidOpcode := by
  unfold Obligations.StepRaisesInvalidOpcode
  intro s hs h
  exact ⟨step_of_fetch_error hs (State.fetchInstr_of_no_opcode h), rfl⟩

end Sys2Proof.Machine
end

section
/-! Decode and encode agree, both ways (spec/30_encoding.md R50, R53, R56, R59), and what the fetch makes of it: an instruction's
opcode byte is recognised, so the decoder answers the instruction or names the first byte that is missing. -/

namespace Sys2Proof

/-! ## The decoder on an encoding -/

theorem decode_encode_append (i : Instr) (rest : List Byte) : decode (encode i ++ rest) = .ok (i, rest) := by
  cases i <;> rfl

/-- Settles O3: the decoder reads only encodings (`decode_eq_ok`), and it reads every encoding back. -/
theorem decodeReadsExactlyTheEncoding : Obligations.DecodeReadsExactlyTheEncoding := by
  unfold Obligations.DecodeReadsExactlyTheEncoding
  intro bs i rest
  constructor
  · exact decode_eq_ok
  · rintro rfl
    exact decode_encode_append i rest

/-! ## Recognition and the operand bytes -/

theorem recognise_opcode (i : Instr) : ∃ sh, recognise i.opcode = some sh ∧ sh.operandBytes = i.operandBytes.length := by
  cases h : recognise i.opcode with
  | none =>
    have hok := decode_encode_append i []
    simp [encode, decode, h] at hok
  | some sh => exact ⟨sh, rfl, by rw [← recognise_operandCount h, operandCount_opcode]⟩

theorem recognise_eq_none_iff (op : Byte) : recognise op = none ↔ ∀ i : Instr, i.opcode ≠ op := by
  refine ⟨?_, recognise_eq_none⟩
  rintro h i rfl
  obtain ⟨sh, hsh, -⟩ := recognise_opcode i
  simp [hsh] at h

theorem Shape.operandBytes_le (sh : Shape) : sh.operandBytes ≤ 2 := by
  cases sh <;> simp [Shape.operandBytes]

/-- With too few bytes left, the first missing byte is named. -/
theorem Shape.takeOperands_of_lt {sh : Shape} {bs : List Byte} (h : bs.length < sh.operandBytes) :
    sh.takeOperands bs = .error (.missingByte (bs.length + 1)) := by
  match sh, bs with
  | .f0 _, _ | .f1 _, _ :: _ | .f2 _, _ :: _ :: _ => simp [Shape.operandBytes] at h
  | .f1 _, [] | .f2 _, [] | .f2 _, [_] => rfl

theorem Shape.takeOperands_of_le {sh : Shape} {bs : List Byte} (h : sh.operandBytes ≤ bs.length) :
    ∃ i rest, sh.takeOperands bs = .ok (i, rest) := by
  match sh, bs with
  | .f0 _, _ | .f1 _, _ :: _ | .f2 _, _ :: _ :: _ => exact ⟨_, _, rfl⟩
  | .f1 _, [] | .f2 _, [] | .f2 _, [_] => simp [Shape.operandBytes] at h

theorem decode_of_recognise {op : Byte} {sh : Shape} (h : recognise op = some sh) (rest : List Byte) :
    decode (op :: rest) = sh.takeOperands rest := by
  simp [decode, h]

theorem recognise_isSome_iff (op : Byte) : (recognise op).isSome = true ↔ op ∈ opcodeMap.map Prod.fst := by
  rw [Option.isSome_iff_exists, List.mem_map]
  constructor
  · rintro ⟨sh, hsh⟩
    exact ⟨(op, sh), lookupOpcode_mem hsh, rfl⟩
  · rintro ⟨row, hrow, rfl⟩
    cases h : recognise row.1 with
    | some sh => exact ⟨sh, rfl⟩
    | none =>
      obtain ⟨i, hi⟩ := (opcodeMap_encodes row hrow).exists_opcode
      exact absurd hi ((recognise_eq_none_iff row.1).mp h i)

/-- The recognised bytes are the keys of the map, each once. -/
theorem recognisedBytes_perm :
    ((List.range 256).filter fun n => (recognise (BitVec.ofNat 8 n)).isSome).Perm
      (opcodeMap.map fun row => row.1.toNat) := by
  have hkeys : (opcodeMap.map fun row => row.1.toNat).Nodup := by decide
  rw [List.perm_ext_iff_of_nodup (List.nodup_range.filter _) hkeys]
  intro n
  rw [List.mem_filter, List.mem_range, recognise_isSome_iff, List.mem_map, List.mem_map]
  constructor
  · rintro ⟨hn, row, hrow, hkey⟩
    exact ⟨row, hrow, by rw [hkey, BitVec.toNat_ofNat, Nat.mod_eq_of_lt hn]⟩
  · rintro ⟨row, hrow, rfl⟩
    exact ⟨row.1.isLt, row, hrow, (BitVec.ofNat_toNat 8 row.1).symm⟩

/-- Of the 256 bytes all but the 35 keys of the map are rejected. -/
theorem unrecognisedBytes_length :
    ((List.range 256).filter fun n => (recognise (BitVec.ofNat 8 n)).isNone).length = 221 := by
  have hsome := recognisedBytes_perm.length_eq
  have hsplit := List.length_eq_length_filter_add (l := List.range 256) fun n => (recognise (BitVec.ofNat 8 n)).isSome
  simp only [List.length_range, List.length_map, opcodeMap_length, Option.not_isSome] at hsome hsplit
  omega

/-- Settles O4: an opcode byte is recognised, and then the decoder answers an instruction or a missing byte, never
`invalidOpcode`; the 221 bytes are counted. -/
theorem unknownOpcodesAreRejected : Obligations.UnknownOpcodesAreRejected := by
  unfold Obligations.UnknownOpcodesAreRejected
  refine ⟨fun op rest => ⟨?_, fun h => decode_of_no_opcode h rest⟩, unrecognisedBytes_length⟩
  rintro h i rfl
  obtain ⟨sh, hsh, -⟩ := recognise_opcode i
  rw [decode_of_recognise hsh] at h
  rcases Nat.lt_or_ge rest.length sh.operandBytes with hlt | hge
  · rw [Shape.takeOperands_of_lt hlt] at h
    cases h
  · obtain ⟨j, rest', hok⟩ := Shape.takeOperands_of_le hge
    rw [hok] at h
    cases h

/-- Settles O5: each word is decoded by evaluation. -/
theorem sampleWordsDecode : Obligations.SampleWordsDecode :=
  ⟨rfl, rfl, rfl, rfl, rfl, rfl, rfl, rfl, rfl, rfl, rfl, rfl, rfl, rfl⟩

end Sys2Proof

namespace Sys2Proof.Machine

/-! ## What the fetch reaches -/

/-- The fetch reaches the `k`-th byte from `pc` when it is one of three and lies within memory. -/
theorem State.fetchBytes_getElem? (s : State) {k : Nat} (hk : k < 3) (h : s.pc.toNat + k ≤ 255) :
    s.fetchBytes[k]? = some (s.readByte (s.pc + BitVec.ofNat 8 k)) := by
  unfold State.fetchBytes
  match k with
  | 0 => simp
  | 1 => simp [pcPlus_of_le h]
  | 2 =>
    have h1 : s.pc.toNat + 1 ≤ 255 := by omega
    simp [pcPlus_of_le h1, pcPlus_of_le h]

theorem State.fetchBytes_length (s : State) : s.fetchBytes.length = min 3 (256 - s.pc.toNat) := by
  have hpc := s.pc.isLt
  rcases Nat.lt_or_ge 253 s.pc.toNat with h | h
  · rcases Nat.lt_or_ge 254 s.pc.toNat with h' | h'
    · rw [State.fetchBytes_of_255 (by omega)]
      simp
      omega
    · rw [State.fetchBytes_of_254 (by omega)]
      simp
      omega
  · rw [State.fetchBytes_of_le (by omega)]
    simp
    omega

theorem State.fetchInstr_of_decode {s : State} {i : Instr} {rest : List Byte} (h : decode s.fetchBytes = .ok (i, rest)) :
    s.fetchInstr = .ok i := by
  simp [State.fetchInstr, h]

/-- The fetched instruction's bytes lie within memory. -/
theorem State.fetchInstr_room {s : State} {i : Instr} (h : s.fetchInstr = .ok i) :
    s.pc.toNat + i.operandBytes.length ≤ 255 := by
  unfold State.fetchInstr at h
  split at h
  · rename_i j rest hd
    cases h
    have hlen := congrArg List.length (decode_eq_ok hd)
    rw [State.fetchBytes_length, List.length_append, encode, List.length_cons] at hlen
    omega
  · cases h
  · cases h

/-- A byte at `pc` that is an opcode leaves the fetch to the operand bytes its shape takes. -/
theorem State.decode_fetchBytes {s : State} {i : Instr} (hop : s.readByte s.pc = i.opcode) :
    ∃ (sh : Shape) (tail : List Byte), sh.operandBytes = i.operandBytes.length ∧
      tail.length + 1 = min 3 (256 - s.pc.toNat) ∧ decode s.fetchBytes = sh.takeOperands tail := by
  obtain ⟨sh, hsh, hlen⟩ := recognise_opcode i
  obtain ⟨tail, htail⟩ : ∃ tail, s.fetchBytes = i.opcode :: tail := ⟨_, congrArg (· :: _) hop⟩
  refine ⟨sh, tail, hlen, ?_, ?_⟩
  · rw [← State.fetchBytes_length, htail, List.length_cons]
  · rw [htail, decode_of_recognise hsh]

theorem State.fetchInstr_of_le {s : State} {i : Instr} (hop : s.readByte s.pc = i.opcode)
    (h : s.pc.toNat + i.operandBytes.length ≤ 255) : ∃ j, s.fetchInstr = .ok j := by
  obtain ⟨sh, tail, hsh, hlen, hd⟩ := State.decode_fetchBytes hop
  have hle := sh.operandBytes_le
  obtain ⟨j, rest, hok⟩ := Shape.takeOperands_of_le (sh := sh) (bs := tail) (by omega)
  exact ⟨j, State.fetchInstr_of_decode (hd.trans hok)⟩

/-- When the last operand byte of a recognised opcode lies beyond memory, the fetch raises address 256, the first missing
one. -/
theorem State.fetchInstr_of_gt {s : State} {i : Instr} (hop : s.readByte s.pc = i.opcode)
    (h : 255 < s.pc.toNat + i.operandBytes.length) : s.fetchInstr = .error (.addressOutOfRange 256) := by
  obtain ⟨sh, tail, hsh, hlen, hd⟩ := State.decode_fetchBytes hop
  have hle := sh.operandBytes_le
  have hpc := s.pc.isLt
  have hmissing := hd.trans (Shape.takeOperands_of_lt (sh := sh) (bs := tail) (by omega))
  have h256 : s.pc.toNat + (tail.length + 1) = 256 := by omega
  simp [State.fetchInstr, hmissing, h256]

/-- Everything the fetch can answer: an instruction, or one of the two faults of R74 and R75. -/
theorem State.fetchInstr_cases (s : State) :
    (∃ i, s.fetchInstr = .ok i) ∨
      ((∀ i : Instr, i.opcode ≠ s.readByte s.pc) ∧ s.fetchInstr = .error (.invalidOpcode (s.readByte s.pc))) ∨
      (∃ i : Instr, i.opcode = s.readByte s.pc ∧ 255 < s.pc.toNat + i.operandBytes.length ∧
        s.fetchInstr = .error (.addressOutOfRange 256)) := by
  by_cases hno : ∀ i : Instr, i.opcode ≠ s.readByte s.pc
  · exact .inr (.inl ⟨hno, State.fetchInstr_of_no_opcode hno⟩)
  · obtain ⟨i, hi⟩ := not_forall_not.mp hno
    rcases Nat.lt_or_ge 255 (s.pc.toNat + i.operandBytes.length) with hgt | hle
    · exact .inr (.inr ⟨i, hi, hgt, State.fetchInstr_of_gt hi.symm hgt⟩)
    · obtain ⟨j, hj⟩ := State.fetchInstr_of_le hi.symm hle
      exact .inl ⟨j, hj⟩

/-- Settles O8: the fetch raises the address of the first operand byte beyond memory, and taking a fault writes only the
status. -/
theorem stepRaisesOperandFetchFault : Obligations.StepRaisesOperandFetchFault := by
  unfold Obligations.StepRaisesOperandFetchFault
  intro s i hs hop h
  exact step_of_fetch_error hs (State.fetchInstr_of_gt hop h)

/-- The bytes of an instruction that lie at `pc` upward are the first the fetch reaches. -/
theorem State.encode_prefix_fetchBytes {s : State} {i : Instr}
    (h : ∀ (k : Nat) (x : Byte), (encode i)[k]? = some x →
      s.pc.toNat + k ≤ 255 ∧ s.readByte (s.pc + BitVec.ofNat 8 k) = x) : encode i <+: s.fetchBytes := by
  rw [List.prefix_iff_getElem?]
  intro k hk
  obtain ⟨hle, hx⟩ := h k _ (List.getElem?_eq_getElem hk)
  obtain ⟨sh, -, hlen⟩ := recognise_opcode i
  have hsh := sh.operandBytes_le
  have hk3 : k < 3 := by
    rw [encode, List.length_cons] at hk
    omega
  rw [State.fetchBytes_getElem? s hk3 hle, hx]

/-- Settles O6: the decoder reads the instruction back from its encoding, and a step whose fetch answers `i` is `exec i`. -/
theorem stepRunsInstructionAtPc : Obligations.StepRunsInstructionAtPc := by
  unfold Obligations.StepRunsInstructionAtPc
  have hdecoded : ∀ (s : State) (i : Instr) (rest : List Byte), s.status = .running →
      decode s.fetchBytes = .ok (i, rest) → step s = exec i s :=
    fun s i rest hs hd => step_of_fetch hs (State.fetchInstr_of_decode hd)
  refine ⟨fun s i hs h => ?_, hdecoded⟩
  obtain ⟨rest, hrest⟩ := State.encode_prefix_fetchBytes h
  exact hdecoded s i rest hs (hrest ▸ decode_encode_append i rest)

/-- The bytes placed at `pc` are the bytes fetched there. -/
theorem State.fetchBytes_withFetchWord {s : State} (hm : Memory.wf s.mem = true) (hpc : s.pc.toNat ≤ 253) (nbits w : Nat) :
    (s.withFetchWord nbits w).fetchBytes = tableWordBytes nbits w := by
  have hread : ∀ (k : Nat) (x : Byte), k < 3 → (tableWordBytes nbits w)[k]? = some x →
      (s.withFetchWord nbits w).readByte (s.pc + BitVec.ofNat 8 k) = x := by
    intro k x hk hx
    have haddr : (s.pc + BitVec.ofNat 8 k).toNat = s.pc.toNat + k := by
      simp
      omega
    unfold State.readByte
    rw [haddr]
    exact Memory.load_storeBytes_inside _ hm hx (by omega)
  refine List.ext_getElem? fun k => ?_
  rcases Nat.lt_or_ge k 3 with hk | hk
  · have hfetch := (s.withFetchWord nbits w).fetchBytes_getElem? hk (show s.pc.toNat + k ≤ 255 by omega)
    have hx := List.getElem?_eq_getElem (l := tableWordBytes nbits w) hk
    rw [hfetch, hx]
    exact congrArg some (hread k _ hk hx)
  · have hlen : (s.withFetchWord nbits w).fetchBytes.length ≤ k := by
      rw [State.fetchBytes_length]
      omega
    rw [List.getElem?_eq_none hlen, List.getElem?_eq_none hk]

/-- Settles O9: the fetch reaches the placed word, from which the decoder reads the instruction. -/
theorem stepRunsPlacedWord : Obligations.StepRunsPlacedWord := by
  unfold Obligations.StepRunsPlacedWord
  intro s nbits w i hm hpc hw
  unfold decodeTableWord at hw
  split at hw
  · rename_i j rest hd
    cases hw
    rw [← State.fetchBytes_withFetchWord hm hpc] at hd
    exact step_of_fetch rfl (State.fetchInstr_of_decode hd)
  · cases hw

end Sys2Proof.Machine
end

section
/-! What an instruction writes, said once: the effects a handler can have, and from them which registers, which bytes of memory
and which output change (spec/10_state.md R21, R25, spec/20_memory.md R31, R32). -/

namespace Sys2Proof.Machine

/-! ## The effects of a handler -/

/-- The register operand byte of an instruction whose rule writes that register. -/
def destOperand : Instr → Option Byte
  | .add a _ | .sub a _ | .mul a _ | .div a _ | .mod a _ | .and a _ | .or a _ | .xor a _ | .shl a _ | .shr a _
  | .addi a _ | .not a | .inc a | .dec a | .ldi a _ | .ld a _ | .pop a => some a
  | _ => none

/-- The instructions whose rule moves SP. -/
def movesSp : Instr → Bool
  | .push _ | .pop _ | .call _ | .ret => true
  | _ => false

/-- What the handler of an instruction, begun in `s`, leaves when it raises no fault. -/
inductive HandlerEffect (s : State) : Instr → State → Prop
  | unchanged {i : Instr} : HandlerEffect s i s
  | halt : HandlerEffect s .hlt s.halt
  | jump {i : Instr} (p : Byte) : HandlerEffect s i (s.setPc p)
  | compare {a b : Byte} (va vb : Byte) : HandlerEffect s (.cmp a b) (s.setFl (compareFlags va vb))
  | writeReg {i : Instr} {r : RegIdx} (dest : destOperand i = some (regByte r)) (v : Byte) : HandlerEffect s i (s.setReg r v)
  | store (ra rb : RegIdx) : HandlerEffect s (.st (regByte ra) (regByte rb)) (s.writeByte (s.reg ra) (s.reg rb))
  | push (ra : RegIdx) : HandlerEffect s (.push (regByte ra)) (s.pushWith fun t => t.reg ra)
  | pop (ra : RegIdx) : HandlerEffect s (.pop (regByte ra)) (s.setReg ra s.stackTop).dropTop
  | call (a back p : Byte) : HandlerEffect s (.call a) ((s.pushWith fun _ => back).setPc p)
  | ret : HandlerEffect s .ret (s.setPc s.stackTop).dropTop
  | printNum (ra : RegIdx) : HandlerEffect s (.prn (regByte ra)) (s.emit (.num (s.reg ra)))
  | printChar (ra : RegIdx) : HandlerEffect s (.pra (regByte ra)) (s.emit (.char (s.reg ra)))

theorem HandlerEffect.of_aluApply {i : Instr} {op : AluOp} (hop : op ≠ .cmp) {ra : RegIdx}
    (hd : destOperand i = some (regByte ra)) {vb : Byte} {s u : State} (h : aluApply op ra vb s = .ok u) :
    HandlerEffect s i u := by
  rcases aluApply_eq_ok h with ⟨hc, -⟩ | ⟨-, rfl⟩
  · exact absurd hc hop
  · exact .writeReg hd _

/-- Every handler has one of the effects. -/
theorem handlerEffect_of_ok {i : Instr} {s u : State} (h : handlerOf i s = .ok u) : HandlerEffect s i u := by
  cases i with
  | nop | iret | int => cases h; exact .unchanged
  | hlt => cases h; exact .halt
  | ret => cases h; exact .ret
  | push => obtain ⟨ra, rfl, hu⟩ := withReg_eq_ok h; cases hu; exact .push ra
  | pop => obtain ⟨ra, rfl, hu⟩ := withReg_eq_ok h; cases hu; exact .pop ra
  | prn => obtain ⟨ra, rfl, hu⟩ := withReg_eq_ok h; cases hu; exact .printNum ra
  | pra => obtain ⟨ra, rfl, hu⟩ := withReg_eq_ok h; cases hu; exact .printChar ra
  | jmp => obtain ⟨ra, rfl, hu⟩ := withReg_eq_ok h; cases hu; exact .jump _
  | ldi => obtain ⟨ra, rfl, hu⟩ := withReg_eq_ok h; cases hu; exact .writeReg rfl _
  | call =>
    obtain ⟨ra, rfl, hu⟩ := withReg_eq_ok h
    rcases pcPlus_cases s.pc 2 with ⟨-, he⟩ | ⟨-, he⟩
    · simp only [he] at hu
      cases hu
      exact .call _ _ _
    · simp [he] at hu
  | jeq | jne | jgt | jlt | jle | jge => obtain ⟨p, rfl⟩ := jumpIf_eq_ok h; exact .jump p
  | ld => obtain ⟨ra, rb, rfl, rfl, hu⟩ := withRegs_eq_ok h; cases hu; exact .writeReg rfl _
  | st => obtain ⟨ra, rb, rfl, rfl, hu⟩ := withRegs_eq_ok h; cases hu; exact .store ra rb
  | cmp => obtain ⟨ra, rb, rfl⟩ := aluRegReg_cmp_eq_ok h; exact .compare _ _
  | inc | dec | not | addi =>
    obtain ⟨ra, rfl, hu⟩ := withReg_eq_ok h
    exact .of_aluApply (by decide) rfl hu
  | add | sub | mul | div | mod | and | or | xor | shl | shr =>
    obtain ⟨ra, rb, rfl, rfl, hu⟩ := withRegs_eq_ok h
    exact .of_aluApply (by decide) rfl hu

/-! ## Registers -/

theorem HandlerEffect.reg {i : Instr} {s u : State} (h : HandlerEffect s i u) {q : RegIdx}
    (hdest : destOperand i ≠ some (regByte q)) (hsp : movesSp i = true → q ≠ 7) : u.reg q = s.reg q := by
  cases h with
  | unchanged | halt | jump | compare | store | printNum | printChar => rfl
  | @writeReg _ r dest v => exact State.reg_setReg_ne s v fun e => hdest (e ▸ dest)
  | push => rw [State.pushWith_reg, State.reg_setSp_ne s _ (hsp rfl)]
  | call => rw [State.setPc_reg, State.pushWith_reg, State.reg_setSp_ne s _ (hsp rfl)]
  | ret => rw [State.dropTop_reg_ne _ (hsp rfl), State.setPc_reg]
  | pop ra => rw [State.dropTop_reg_ne _ (hsp rfl), State.reg_setReg_ne s _ fun e => hdest (congrArg (some ∘ regByte) e.symm)]

/-- An instruction leaves every register alone but the one its rule names and, where it uses the stack, SP. -/
theorem exec_reg {i : Instr} {s t : State} (h : exec i s = .next t) {q : RegIdx}
    (hdest : destOperand i ≠ some (regByte q)) (hsp : movesSp i = true → q ≠ 7) : t.reg q = s.reg q := by
  rcases exec_cases h with ⟨u, hu, rfl⟩ | ⟨r, -, rfl⟩
  · rw [State.advance_reg, (handlerEffect_of_ok hu).reg hdest hsp]
  · exact State.raise_reg s r q

/-- Settles O41: each list's instructions name the destination and the use of SP that their clause allows. -/
theorem registerFrame : Obligations.RegisterFrame := by
  unfold Obligations.RegisterFrame
  intro a b s t q
  refine ⟨fun i hi h => ?_, fun i hi h hq => ?_, fun i hi h hq => ?_, fun h hq ha => ?_⟩
  · have hnone : destOperand i = none ∧ movesSp i = false := by
      revert i
      simp [destOperand, movesSp]
    exact exec_reg h (by simp [hnone]) (by simp [hnone])
  · have hdest : destOperand i = some a ∧ movesSp i = false := by
      revert i
      simp [destOperand, movesSp]
    exact exec_reg h (by simp [hdest, hq]) (by simp [hdest])
  · have hnone : destOperand i = none := by
      revert i
      simp [destOperand]
    exact exec_reg h (by simp [hnone]) fun _ => hq
  · exact exec_reg h (fun e => ha (Option.some.inj e)) fun _ => hq

/-! ## Memory -/

theorem HandlerEffect.readByte {i : Instr} {s u : State} (h : HandlerEffect s i u) {x : Byte}
    (hst : ∀ ra rb, i = .st (regByte ra) (regByte rb) → x ≠ s.reg ra)
    (hpush : ∀ a, i = .push a ∨ i = .call a → x ≠ s.reg 7 - 1#8) : u.readByte x = s.readByte x := by
  cases h with
  | unchanged | halt | jump | compare | writeReg | pop | ret | printNum | printChar => rfl
  | store ra rb => exact State.readByte_writeByte_ne s _ (hst ra rb rfl)
  | push => exact State.readByte_pushWith_ne s _ (hpush _ (.inl rfl))
  | call => exact (State.setPc_readByte _ _ x).trans (State.readByte_pushWith_ne s _ (hpush _ (.inr rfl)))

/-- An instruction leaves every byte of memory alone but the one ST, PUSH or CALL writes. -/
theorem exec_readByte {i : Instr} {s t : State} (h : exec i s = .next t) {x : Byte}
    (hst : ∀ ra rb, i = .st (regByte ra) (regByte rb) → x ≠ s.reg ra)
    (hpush : ∀ a, i = .push a ∨ i = .call a → x ≠ s.reg 7 - 1#8) : t.readByte x = s.readByte x := by
  rcases exec_cases h with ⟨u, hu, rfl⟩ | ⟨r, -, rfl⟩
  · rw [State.advance_readByte, (handlerEffect_of_ok hu).readByte hst hpush]
  · exact State.raise_readByte s r x

/-- Settles O42: each clause names the cells that ST, PUSH and CALL write. -/
theorem memoryFrame : Obligations.MemoryFrame := by
  unfold Obligations.MemoryFrame
  refine ⟨fun i s t x hi h => ?_, fun a b s t x h hx => ?_, fun a s t x h hx => ?_⟩
  · refine exec_readByte h (fun ra rb e => ?_) fun a e => ?_
    · obtain ⟨hst, -, -⟩ := hi (regByte ra) (regByte rb)
      exact absurd e hst
    · obtain ⟨-, hpush, hcall⟩ := hi a a
      exact absurd e (not_or.mpr ⟨hpush, hcall⟩)
  · refine exec_readByte h (fun ra rb e => ?_) nofun
    injection e with ha
    exact hx ra ha
  · rcases h with h | h
    · exact exec_readByte h nofun fun _ _ => hx
    · exact exec_readByte h nofun fun _ _ => hx

/-! ## Output -/

theorem HandlerEffect.out {i : Instr} {s u : State} (h : HandlerEffect s i u) :
    u.out = s.out ∨ (∃ ra : RegIdx, i = .prn (regByte ra) ∧ u.out = s.out ++ [.num (s.reg ra)]) ∨
      (∃ ra : RegIdx, i = .pra (regByte ra) ∧ u.out = s.out ++ [.char (s.reg ra)]) := by
  cases h with
  | unchanged | halt | jump | compare | writeReg | store | push | pop | call | ret => exact .inl rfl
  | printNum ra => exact .inr (.inl ⟨ra, rfl, rfl⟩)
  | printChar ra => exact .inr (.inr ⟨ra, rfl, rfl⟩)

/-! ## What every step keeps -/

theorem HandlerEffect.mem_wf {i : Instr} {s u : State} (h : HandlerEffect s i u) (hm : Memory.wf s.mem = true) :
    Memory.wf u.mem = true := by
  cases h with
  | unchanged | halt | jump | compare | writeReg | pop | ret | printNum | printChar => exact hm
  | store => exact State.writeByte_wf s _ _ hm
  | push => exact State.pushWith_wf s _ hm
  | call a back p => exact State.pushWith_wf s (fun _ => back) hm

theorem compareFlags_legal (va vb : Byte) : flLegal (compareFlags va vb) = true := by
  rcases compareFlags_cases va vb with h | h | h <;> rw [h] <;> rfl

theorem HandlerEffect.fl_legal {i : Instr} {s u : State} (h : HandlerEffect s i u) (hf : flLegal s.fl = true) :
    flLegal u.fl = true := by
  cases h with
  | unchanged | halt | jump | writeReg | store | push | pop | call | ret | printNum | printChar => exact hf
  | compare => exact compareFlags_legal _ _

end Sys2Proof.Machine
end

section
/-! Changes of a state that an instruction carries through: what no handler reads is the same after the instruction as before it.
Earlier output is carried through by every instruction (spec/10_state.md R21), and `pc` by every handler whose opcode has a clear
PC-set bit (spec/40_fetch_decode_dispatch.md R77). -/

namespace Sys2Proof.Machine

theorem aluApply_of_zero {op : AluOp} (hd : aluDivides op = true) {vb : Byte} (hz : vb = 0x00#8) (ra : RegIdx) (s : State) :
    aluApply op ra vb s = .error .divideByZero := by
  simp [aluApply, aluCore, hd, hz]

theorem aluApply_cmp (ra : RegIdx) (vb : Byte) (s : State) :
    aluApply .cmp ra vb s = .ok (s.setFl (compareFlags (s.reg ra) vb)) := rfl

/-- `g` changes neither registers nor memory, and may be made before or after each operation of a handler that writes no
`pc`. -/
structure Carried (g : State → State) : Prop where
  reg (s : State) (q : RegIdx) : (g s).reg q = s.reg q
  readByte (s : State) (x : Byte) : (g s).readByte x = s.readByte x
  setReg (s : State) (r : RegIdx) (v : Byte) : (g s).setReg r v = g (s.setReg r v)
  setFl (s : State) (v : Byte) : (g s).setFl v = g (s.setFl v)
  writeByte (s : State) (x v : Byte) : (g s).writeByte x v = g (s.writeByte x v)
  emit (s : State) (e : Event) : (g s).emit e = g (s.emit e)
  halt (s : State) : (g s).halt = g s.halt

section Carried

variable {g : State → State} (hg : Carried g)
include hg

theorem Carried.sp (s : State) : (g s).sp = s.sp := hg.reg s _

theorem Carried.stackTop (s : State) : (g s).stackTop = s.stackTop := by
  rw [State.stackTop, hg.sp, hg.readByte, State.stackTop]

theorem Carried.dropTop (s : State) : (g s).dropTop = g s.dropTop := by
  rw [State.dropTop, hg.sp]
  exact hg.setReg s _ _

theorem Carried.pushWith (s : State) {f : State → Byte} (hf : ∀ t, f (g t) = f t) :
    (g s).pushWith f = g (s.pushWith f) := by
  have hsp : (g s).setSp ((g s).sp - 1#8) = g (s.setSp (s.sp - 1#8)) := by
    rw [hg.sp]
    exact hg.setReg s _ _
  simp only [State.pushWith]
  rw [hsp, hg.sp (s.setSp _), hf, hg.writeByte]

theorem Carried.aluApply (op : AluOp) (ra : RegIdx) (vb : Byte) (s : State) :
    aluApply op ra vb (g s) = (aluApply op ra vb s).map g := by
  rcases aluApply_cases op ra vb s with ⟨hd, hz, he⟩ | ⟨rfl, he⟩ | ⟨hc, hd, he⟩
  · rw [he, aluApply_of_zero hd hz]
    rfl
  · rw [he, aluApply_cmp, hg.reg, hg.setFl]
    rfl
  · rw [he, aluApply_of_write hc hd, hg.reg, hg.setReg]
    rfl

/-- A handler whose opcode has a clear PC-set bit carries `g` through. -/
theorem Carried.handlerOf {i : Instr} (hp : (decodeFields i.opcode).setsPc = false) (s : State) :
    handlerOf i (g s) = (handlerOf i s).map g := by
  cases i with
  | nop => rfl
  | hlt => exact congrArg Except.ok (hg.halt s)
  | push => exact withReg_map fun ra => congrArg Except.ok (hg.pushWith s fun t => hg.reg t ra)
  | pop =>
    refine withReg_map fun ra => ?_
    rw [hg.stackTop, hg.setReg, hg.dropTop]
    rfl
  | prn | pra =>
    refine withReg_map fun ra => ?_
    rw [hg.reg, hg.emit]
    rfl
  | ldi => exact withReg_map fun ra => congrArg Except.ok (hg.setReg s ra _)
  | ld =>
    refine withRegs_map fun ra rb => ?_
    rw [hg.reg, hg.readByte, hg.setReg]
    rfl
  | st =>
    refine withRegs_map fun ra rb => ?_
    rw [hg.reg, hg.reg, hg.writeByte]
    rfl
  | inc | dec | not | addi => exact withReg_map fun ra => hg.aluApply _ ra _ s
  | add | sub | mul | div | mod | cmp | and | or | xor | shl | shr =>
    refine withRegs_map fun ra rb => ?_
    rw [hg.reg]
    exact hg.aluApply _ ra _ s
  | ret | iret | call | int | jmp | jeq | jne | jgt | jlt | jle | jge =>
    exact absurd ((setsPc_opcode _).mpr (by simp)) (Bool.eq_false_iff.mp hp)

end Carried

/-! ## Earlier output -/

/-- `s` with events in front of its output. -/
def State.prependOut (s : State) (before : List Event) : State := { s with out := before ++ s.out }

@[simp] theorem State.prependOut_pc (s : State) (before : List Event) : (s.prependOut before).pc = s.pc := rfl
@[simp] theorem State.prependOut_status (s : State) (before : List Event) : (s.prependOut before).status = s.status := rfl

theorem carried_prependOut (before : List Event) : Carried (·.prependOut before) where
  reg _ _ := rfl
  readByte _ _ := rfl
  setReg _ _ _ := rfl
  setFl _ _ := rfl
  writeByte _ _ _ := rfl
  emit s e := by simp [State.prependOut, State.emit]
  halt _ := rfl

theorem State.advance_prependOut (s : State) (before : List Event) (op : Byte) :
    (s.prependOut before).advance op = (s.advance op).prependOut before := by
  unfold State.advance
  rw [State.prependOut_status, State.prependOut_pc]
  split
  · cases pcPlus s.pc ((decodeFields op).operandCount.toNat + 1) <;> rfl
  · rfl

theorem jumpIf_prependOut (taken : Bool) (a : Byte) (s : State) (before : List Event) :
    jumpIf taken a (s.prependOut before) = (jumpIf taken a s).map (·.prependOut before) := by
  refine withReg_map fun ra => ?_
  cases taken with
  | true => rfl
  | false =>
    rw [State.prependOut_pc]
    cases pcPlus s.pc 2 <;> rfl

/-- Every handler carries earlier output through. -/
theorem handlerOf_prependOut (i : Instr) (s : State) (before : List Event) :
    handlerOf i (s.prependOut before) = (handlerOf i s).map (·.prependOut before) := by
  cases hp : (decodeFields i.opcode).setsPc with
  | false => exact (carried_prependOut before).handlerOf hp s
  | true =>
    rcases (setsPc_opcode i).mp hp with rfl | rfl | ⟨a, rfl | rfl | rfl | hjump⟩
    · rfl
    · rfl
    · refine withReg_map fun ra => ?_
      rw [State.prependOut_pc]
      cases pcPlus s.pc 2 <;> rfl
    · rfl
    · exact withReg_map fun _ => rfl
    · rcases hjump with rfl | rfl | rfl | rfl | rfl | rfl <;> exact jumpIf_prependOut _ a s before

theorem exec_prependOut {i : Instr} {s t : State} (before : List Event) (h : exec i s = .next t) :
    exec i (s.prependOut before) = .next (t.prependOut before) := by
  rcases exec_cases h with ⟨u, hu, rfl⟩ | ⟨r, hr, rfl⟩
  · have hf : handlerOf i (s.prependOut before) = .ok (u.prependOut before) := by rw [handlerOf_prependOut, hu]; rfl
    rw [exec_of_ok hf, State.advance_prependOut]
  · have hf : handlerOf i (s.prependOut before) = .error r := by rw [handlerOf_prependOut, hr]; rfl
    exact exec_of_error hf

/-- Settles O46: only the two printing effects change `out`, and earlier output is carried through every instruction. -/
theorem outputGrowsOnlyByPrint : Obligations.OutputGrowsOnlyByPrint := by
  unfold Obligations.OutputGrowsOnlyByPrint
  refine ⟨fun i s t h => ?_, fun i s t before h => exec_prependOut before h⟩
  rcases exec_cases h with ⟨u, hu, rfl⟩ | ⟨r, -, rfl⟩
  · rw [State.advance_out]
    exact (handlerEffect_of_ok hu).out
  · exact .inl (State.raise_out s r)

/-! ## The address of the instruction -/

theorem carried_setPc (p : Byte) : Carried (·.setPc p) where
  reg _ _ := rfl
  readByte _ _ := rfl
  setReg _ _ _ := rfl
  setFl _ _ := rfl
  writeByte _ _ _ := rfl
  emit _ _ := rfl
  halt _ := rfl

/-- Settles O39: the handler leaves the same effects at either address, and where the advance has no room it takes a fault in
the state the handler left. -/
theorem advanceFaultKeepsEffects : Obligations.AdvanceFaultKeepsEffects := by
  unfold Obligations.AdvanceFaultKeepsEffects
  intro s t i hs hp h ht hgt
  rw [encode_length, Nat.add_comm 1] at hgt ⊢
  rcases exec_cases h with ⟨u, hu, rfl⟩ | ⟨r, -, rfl⟩
  · have hf : handlerOf i s = .ok (u.setPc s.pc) := by
      have hback := (carried_setPc s.pc).handlerOf hp (s.setPc 0x00#8)
      exact hback.trans (congrArg (Except.map (·.setPc s.pc)) hu)
    rw [exec_of_ok hf]
    rcases u.advance_cases i.opcode with ⟨he, hne | hset⟩ | ⟨hr, -, -, he⟩ | ⟨-, -, -, he⟩
    · exact absurd (he ▸ ht) hne
    · simp [hp] at hset
    · rw [State.advance_of_gt (s := u.setPc s.pc) hr hp hgt, he]
      rfl
    · rw [he] at ht
      cases ht
  · cases ht

end Sys2Proof.Machine
end

section
/-! How an instruction and a step end: the register check that comes before everything else (spec/60_exceptions.md R164, R167),
the two ways a run ends (spec/10_state.md R20), and the cause and the state of each fault (spec/60_exceptions.md R160 to R164,
spec/40_fetch_decode_dispatch.md R82). From the causes follow the records the invariant allows. -/

namespace Sys2Proof.Machine

/-! ## The register check -/

theorem withReg_of_find {a b : Byte} (h : [a].find? (fun x => decide (7 < x.toNat)) = some b)
    (k : RegIdx → HandlerResult) : withReg a k = .error (.invalidRegisterIndex b) := by
  obtain ⟨hgt, rfl⟩ : 7 < a.toNat ∧ a = b := by simpa [List.find?_singleton] using h
  exact withReg_of_gt hgt k

/-- Of two register operands the first is checked first. -/
theorem withRegs_of_find {a b c : Byte} (h : [a, b].find? (fun x => decide (7 < x.toNat)) = some c)
    (k : RegIdx → RegIdx → HandlerResult) : withRegs a b k = .error (.invalidRegisterIndex c) := by
  rcases regIndex_cases a with ⟨ra, rfl, -⟩ | ⟨ha, -⟩
  · have hle : ¬7 < (regByte ra).toNat := by
      rw [regByte_toNat]
      omega
    rw [List.find?_cons_of_neg (by simpa using hle)] at h
    exact (withReg_regByte ra _).trans (withReg_of_find h _)
  · rw [List.find?_cons_of_pos (by simpa using ha)] at h
    cases h
    exact withReg_of_gt ha _

theorem handlerOf_of_find {i : Instr} {b : Byte} (h : i.regOperands.find? (fun x => decide (7 < x.toNat)) = some b)
    (s : State) : handlerOf i s = .error (.invalidRegisterIndex b) := by
  cases i with
  | nop | hlt | ret | iret | int => cases h
  | push | pop | prn | pra | call | jmp | jeq | jne | jgt | jlt | jle | jge | inc | dec | not | ldi | addi =>
    exact withReg_of_find h _
  | ld | st | add | sub | mul | div | mod | cmp | and | or | xor | shl | shr => exact withRegs_of_find h _

/-- Settles O38: every handler begins with the check of its register operands. -/
theorem badRegisterOperandFaults : Obligations.BadRegisterOperandFaults := by
  unfold Obligations.BadRegisterOperandFaults
  intro s i b h
  exact exec_of_error (handlerOf_of_find h s)

/-! ## The status after an instruction -/

/-- The advance leaves the status alone or raises `AddressOutOfRange`. -/
theorem State.advance_status_cases (s : State) (op : Byte) :
    (s.advance op).status = s.status ∨ ∃ r : FaultRecord, (s.advance op).status = .faulted r := by
  rcases s.advance_cases op with ⟨he, -⟩ | ⟨-, -, -, he⟩ | ⟨-, -, -, he⟩ <;> rw [he]
  · exact .inl rfl
  · exact .inl rfl
  · exact .inr ⟨_, rfl⟩

/-- Settles O47: HLT's handler halts and its advance is skipped; any other handler leaves the status, and the advance leaves it
or faults. -/
theorem onlyHltHalts : Obligations.OnlyHltHalts := by
  unfold Obligations.OnlyHltHalts
  intro i s t h
  constructor
  · rintro rfl
    cases h
    rfl
  · intro hi
    rcases exec_cases h with ⟨u, hu, rfl⟩ | ⟨r, -, rfl⟩
    · rcases handlerOf_status hu with ⟨he, -⟩ | ⟨-, he⟩
      · exact absurd he hi
      · exact he ▸ u.advance_status_cases i.opcode
    · exact .inr ⟨r, rfl⟩

/-! ## The faults of a step -/

/-- How a step ends `Faulted r`: the fetch or the handler raised `r` in the state before the step, or the advance raised it in
the state the handler left. -/
inductive FaultOrigin (s : State) : FaultRecord → State → Prop
  | fetch {r : FaultRecord} (raised : s.fetchInstr = .error r) : FaultOrigin s r (s.raise r)
  | handler {i : Instr} {r : FaultRecord} (fetched : s.fetchInstr = .ok i) (raised : handlerOf i s = .error r) :
      FaultOrigin s r (s.raise r)
  | advance {i : Instr} {u : State} (fetched : s.fetchInstr = .ok i) (handled : handlerOf i s = .ok u)
      (sequential : (decodeFields i.opcode).setsPc = false)
      (gt : 255 < s.pc.toNat + ((decodeFields i.opcode).operandCount.toNat + 1)) :
      FaultOrigin s (.addressOutOfRange (s.pc.toNat + ((decodeFields i.opcode).operandCount.toNat + 1)))
        (u.raise (.addressOutOfRange (s.pc.toNat + ((decodeFields i.opcode).operandCount.toNat + 1))))

/-- Every fault a step takes has one of the three origins. -/
theorem faultOrigin_of_step {s t : State} {r : FaultRecord} (h : step s = .next t) (hr : t.status = .faulted r) :
    FaultOrigin s r t := by
  obtain ⟨hs, ⟨i, hi, he⟩ | ⟨r', hr', rfl⟩⟩ := step_cases h
  · rcases exec_cases he with ⟨u, hu, rfl⟩ | ⟨r', hr', rfl⟩
    · have hne : u.status ≠ .faulted r := by
        rcases handlerOf_status hu with ⟨-, hu'⟩ | ⟨-, hu'⟩ <;> simp [hu', hs]
      rcases u.advance_cases i.opcode with ⟨ha, -⟩ | ⟨-, -, -, ha⟩ | ⟨-, hp, hgt, ha⟩
      · rw [ha] at hr
        exact absurd hr hne
      · rw [ha] at hr
        exact absurd hr hne
      · rw [ha] at hr ⊢
        rw [handlerOf_pc hp hu] at hr hgt ⊢
        cases hr
        exact .advance hi hu hp hgt
    · cases hr
      exact .handler hi hr'
  · cases hr
    exact .fetch hr'

/-- The operand count of the byte at `pc` is that of the fetched instruction, whose bytes lie within memory. -/
theorem State.operandCount_room {s : State} {i : Instr} (h : s.fetchInstr = .ok i) :
    s.pc.toNat + (decodeFields i.opcode).operandCount.toNat ≤ 255 := by
  rw [operandCount_opcode]
  exact State.fetchInstr_room h

/-- Settles O52: a fault of the fetch or of the handler is taken in the state before the step; the advance faults only with a
clear PC-set bit, after a fetch that found all operand bytes, and with `pc` still at the instruction. -/
theorem faultsArePrecise : Obligations.FaultsArePrecise := by
  unfold Obligations.FaultsArePrecise
  intro s t r h hr
  cases faultOrigin_of_step h hr with
  | fetch | handler => exact ⟨rfl, fun _ => rfl, fun _ => rfl, fun _ => rfl⟩
  | @advance i u hi hu hp hgt =>
    have hroom := State.operandCount_room hi
    rw [State.opcode_of_fetchInstr hi] at hp hroom
    refine ⟨?_, fun hne => absurd rfl (hne _), fun hset => ?_, fun hbeyond => ?_⟩
    · rw [State.raise_pc, handlerOf_pc (State.opcode_of_fetchInstr hi ▸ hp) hu]
    · simp [hp] at hset
    · omega

/-- A division that raises `DivideByZero` has two registers as operands, and the second holds 0. -/
theorem aluRegReg_eq_divideByZero {op : AluOp} {a b : Byte} {s : State} (h : aluRegReg op a b s = .error .divideByZero) :
    ∃ ra rb, a = regByte ra ∧ b = regByte rb ∧ s.reg rb = 0x00#8 := by
  rcases withRegs_eq_error h with ⟨-, hr⟩ | ⟨-, hr⟩ | ⟨ra, rb, ha, hb, hk⟩
  · cases hr
  · cases hr
  · obtain ⟨-, -, hz⟩ := aluApply_eq_error hk
    exact ⟨ra, rb, ha, hb, hz⟩

/-- Settles O51: by the origin of the fault, the cases of the fetch, the reasons of a handler, and the advance. -/
theorem onlyTheseCauseFaults : Obligations.OnlyTheseCauseFaults := by
  unfold Obligations.OnlyTheseCauseFaults
  intro s t r h hr
  cases faultOrigin_of_step h hr with
  | fetch raised =>
    rcases s.fetchInstr_cases with ⟨i, hi⟩ | ⟨hno, he⟩ | ⟨i, hop, hgt, he⟩
    · rw [hi] at raised
      cases raised
    · rw [he] at raised
      cases raised
      exact ⟨rfl, hno⟩
    · rw [he] at raised
      cases raised
      refine ⟨rfl, ⟨i, hop⟩, ?_⟩
      rw [← hop, operandCount_opcode]
      omega
  | @handler i r hi raised =>
    cases handlerFault_of_error raised with
    | badRegister mem gt => exact ⟨gt, i, hi, mem⟩
    | zeroDivisor divides zero =>
      rcases divides with rfl | rfl
      · obtain ⟨ra, rb, rfl, hrb, hz⟩ := aluRegReg_eq_divideByZero raised
        exact ⟨ra, rb, hz, .inl (hrb ▸ hi)⟩
      · obtain ⟨ra, rb, rfl, hrb, hz⟩ := aluRegReg_eq_divideByZero raised
        exact ⟨ra, rb, hz, .inr (hrb ▸ hi)⟩
    | noNextAddress twoBytes gt =>
      have hroom := State.fetchInstr_room hi
      have hop := State.opcode_of_fetchInstr hi
      refine ⟨by omega, ⟨i, hop⟩, ?_⟩
      rw [← hop, operandCount_opcode]
      omega
  | @advance i u hi hu hp hgt =>
    have hroom := State.operandCount_room hi
    have hop := State.opcode_of_fetchInstr hi
    refine ⟨by omega, ⟨i, hop⟩, ?_⟩
    rwa [← hop]

/-- A step leaves only the records the spec gives. -/
theorem step_fault_legal {s t : State} {r : FaultRecord} (h : step s = .next t) (hr : t.status = .faulted r) :
    r.legal = true := by
  have hcause := onlyTheseCauseFaults s t r h hr
  cases r with
  | invalidOpcode op => exact Option.isNone_iff_eq_none.mpr ((recognise_eq_none_iff op).mpr hcause.2)
  | divideByZero => rfl
  | addressOutOfRange n => exact decide_eq_true hcause.1
  | invalidRegisterIndex b => exact decide_eq_true hcause.1

/-! ## The invariant -/

/-- An instruction keeps memory canonical and `fl` legal. -/
theorem exec_mem_wf_fl_legal {i : Instr} {s t : State} (h : exec i s = .next t) (hm : Memory.wf s.mem = true)
    (hf : flLegal s.fl = true) : Memory.wf t.mem = true ∧ flLegal t.fl = true := by
  rcases exec_cases h with ⟨u, hu, rfl⟩ | ⟨r, -, rfl⟩
  · rw [State.advance_mem, State.advance_fl]
    exact ⟨(handlerEffect_of_ok hu).mem_wf hm, (handlerEffect_of_ok hu).fl_legal hf⟩
  · exact ⟨hm, hf⟩

/-- Settles O48: each effect of a handler keeps memory canonical and `fl` legal, and each fault has a cause that makes its
record legal. -/
theorem stepKeepsInvariant : Obligations.StepKeepsInvariant := by
  unfold Obligations.StepKeepsInvariant
  intro s t hinv h
  have hdata : Memory.wf t.mem = true ∧ flLegal t.fl = true := by
    obtain ⟨-, ⟨i, -, he⟩ | ⟨r, -, rfl⟩⟩ := step_cases h
    · exact exec_mem_wf_fl_legal he hinv.memWf hinv.flOk
    · exact ⟨hinv.memWf, hinv.flOk⟩
  refine ⟨hdata.1, hdata.2, ?_⟩
  cases hst : t.status with
  | running | halted => rfl
  | faulted r => exact step_fault_legal h hst

/-- The state of a loaded image: everything but memory is as at reset. -/
theorem State.launch_eq_some {image : List Byte} {s : State} (h : State.launch image = some s) :
    s = { State.reset with mem := Memory.storeBytes State.reset.mem Config.loadBase image } := by
  unfold State.launch at h
  split at h
  · exact (Option.some.inj h).symm
  · cases h

/-- Settles O49: loading an image is a run of byte writes, which keep memory canonical. -/
theorem resetAndLaunchMeetInvariant : Obligations.ResetAndLaunchMeetInvariant := by
  unfold Obligations.ResetAndLaunchMeetInvariant
  refine ⟨⟨State.reset_mem_wf, rfl, rfl⟩, fun image s h => ?_⟩
  rw [State.launch_eq_some h]
  exact ⟨Memory.wf_storeBytes image Config.loadBase State.reset_mem_wf, rfl, rfl⟩

end Sys2Proof.Machine
end

section
/-! Reset, launch and runs: what reset leaves (spec/10_state.md R29), where launch puts the image (spec/70_reset_and_hazards.md
R182), the terminal states (spec/60_exceptions.md R169, R176), and the run that stays at an INT or IRET (R149, R150, R189). -/

namespace Sys2Proof.Machine

/-! ## Reset and launch -/

theorem State.reset_reg (r : RegIdx) : State.reset.reg r = if r = 7 then 0xF4#8 else 0x00#8 := by
  revert r
  decide

/-- Settles O50: reset answers the reset state, whatever the state was. -/
theorem resetValues : Obligations.ResetValues := by
  unfold Obligations.ResetValues
  exact fun _ => ⟨fun _ => rfl, State.reset_reg, rfl, rfl, rfl, rfl, rfl⟩

theorem State.launch_of_le {image : List Byte} (h : image.length ≤ 256) :
    State.launch image =
      some { State.reset with mem := Memory.storeBytes State.reset.mem Config.loadBase image } := if_pos h

theorem State.launch_of_gt {image : List Byte} (h : 256 < image.length) : State.launch image = none :=
  if_neg (Nat.not_le.mpr h)

/-- Settles O54: the bytes stored from address 0 upward read back, and the cells above them keep their reset contents. -/
theorem launchPlacesImage : Obligations.LaunchPlacesImage := by
  unfold Obligations.LaunchPlacesImage
  refine ⟨fun image h => ⟨_, State.launch_of_le h, fun i x hx => ?_, fun a ha => ?_, rfl⟩, fun _ => State.launch_of_gt⟩
  · obtain ⟨hi, -⟩ := List.getElem?_eq_some_iff.mp hx
    have hread := Memory.load_storeBytes_inside image State.reset_mem_wf (a := Config.loadBase) hx
      (show 0 + i < 256 by omega)
    have haddr : (BitVec.ofNat 8 i).toNat = Config.loadBase + i := by
      rw [BitVec.toNat_ofNat, Nat.mod_eq_of_lt (by omega), Config.loadBase, Nat.zero_add]
    rw [State.readByte, haddr]
    exact hread
  · exact Memory.load_storeBytes_above image (show 0 + image.length ≤ a.toNat by omega)

/-! ## Runs -/

theorem step_of_faulted {s : State} {r : FaultRecord} (hs : s.status = .faulted r) : step s = .fault (.faulted r) := by
  simp [step, hs]

theorem step_of_halted {s : State} (hs : s.status = .halted) : step s = .fault .halted := by
  simp [step, hs]

theorem run_succ_of_next {s t : State} (h : step s = .next t) (n : Nat) :
    Host.Core.run core (n + 1) s = Host.Core.run core n t := by
  have hcore : core.step s = .next t := h
  simp [Host.Core.run, hcore]

theorem run_succ_of_fault {s : State} {r : Fault} (h : step s = .fault r) (n : Nat) :
    Host.Core.run core (n + 1) s = .fault r := by
  have hcore : core.step s = .fault r := h
  simp [Host.Core.run, hcore]

/-- Settles O10: the step of a faulted state answers the outcome `fault` with its record, and a run stops there. -/
theorem faultIsSticky : Obligations.FaultIsSticky := by
  unfold Obligations.FaultIsSticky
  intro s r hs
  have hstep := step_of_faulted hs
  exact ⟨fun t => by rw [hstep]; exact nofun, run_succ_of_fault hstep, rfl⟩

/-- Settles O34: HLT's handler writes the status, the advance is skipped, and a halted state has no step. -/
theorem hltHalts : Obligations.HltHalts := by
  unfold Obligations.HltHalts
  refine ⟨fun s => ?_, fun s hs t => by rw [step_of_halted hs]; exact nofun⟩
  have hskip : s.halt.advance Instr.hlt.opcode = s.halt := State.advance_of_not_running nofun
  rw [exec_of_ok (i := .hlt) rfl, hskip]
  rfl

/-- Settles O55: every kind of fault has the exit code 1. -/
theorem exitCodes : Obligations.ExitCodes := by
  unfold Obligations.ExitCodes
  exact ⟨rfl, fun r => by cases r <;> rfl, rfl⟩

/-- A state that steps to itself is where every run from it ends. -/
theorem run_of_step_self {s : State} (h : step s = .next s) (n : Nat) : Host.Core.run core n s = .next s := by
  induction n with
  | zero => rfl
  | succ n ih => exact (run_succ_of_next h n).trans ih

/-- A handler whose opcode has the PC-set bit has the last word: nothing is added to it. -/
theorem exec_of_setsPc {i : Instr} {s u : State} (hp : (decodeFields i.opcode).setsPc = true)
    (h : handlerOf i s = .ok u) : exec i s = .next u := by
  rw [exec_of_ok h, State.advance_of_setsPc hp]

/-- Settles O37: the bodies are empty, and the PC-set bit keeps the dispatcher from advancing. -/
theorem intIretChangeNothing : Obligations.IntIretChangeNothing := by
  unfold Obligations.IntIretChangeNothing
  exact ⟨fun s a => exec_of_setsPc (by simp [setsPc_opcode]) (inertBody_eq 2 s), fun s => exec_of_setsPc (by simp [setsPc_opcode]) (inertBody_eq 1 s)⟩

/-- Settles O53: the step from such a state answers that state again. -/
theorem intIretRunForEver : Obligations.IntIretRunForEver := by
  unfold Obligations.IntIretRunForEver
  intro s a n hs hfetch
  obtain ⟨hint, hiret⟩ := intIretChangeNothing
  refine run_of_step_self ?_ n
  rcases hfetch with hi | hi
  · rw [step_of_fetch hs hi, hint]
  · rw [step_of_fetch hs hi, hiret]

end Sys2Proof.Machine
end

section
/-! The next state of each ALU instruction, written out (spec/41_alu.md R102 to R116). Said once: an instruction with room and a
clear PC-set bit ends in its handler's state with `pc` moved past it. What is left for an ALU instruction is the value of its
operation, the exact integer reduced modulo 256 (R101). -/

namespace Sys2Proof.Machine

/-! ## The value of each operation -/

/-- The result of an operation whose exact value is a natural number. -/
theorem ofInt_aluExact_of_eq {op : AluOp} {x y n : Nat} (h : aluExact op x y = n) :
    BitVec.ofInt 8 (aluExact op x y) = BitVec.ofNat 8 n := by
  rw [h, BitVec.ofInt_natCast]

/-- The result of an operation whose exact value may fall below 0: adding 256 keeps it. -/
theorem ofInt_aluExact_of_add_eq {op : AluOp} {x y n : Nat} (h : aluExact op x y + 256 = n) :
    BitVec.ofInt 8 (aluExact op x y) = BitVec.ofNat 8 n := by
  rw [← BitVec.ofInt_natCast, ← h]
  apply BitVec.eq_of_toInt_eq
  rw [BitVec.toInt_ofInt, BitVec.toInt_ofInt]
  exact (Int.add_bmod_right _ _).symm

theorem aluValue_and (x y : Byte) : BitVec.ofInt 8 (aluExact .and x.toNat y.toNat) = x &&& y := by
  rw [ofInt_aluExact_of_eq (n := x.toNat &&& y.toNat) rfl, ← BitVec.toNat_and, BitVec.ofNat_toNat, BitVec.setWidth_eq]

theorem aluValue_or (x y : Byte) : BitVec.ofInt 8 (aluExact .or x.toNat y.toNat) = x ||| y := by
  rw [ofInt_aluExact_of_eq (n := x.toNat ||| y.toNat) rfl, ← BitVec.toNat_or, BitVec.ofNat_toNat, BitVec.setWidth_eq]

theorem aluValue_xor (x y : Byte) : BitVec.ofInt 8 (aluExact .xor x.toNat y.toNat) = x ^^^ y := by
  rw [ofInt_aluExact_of_eq (n := x.toNat ^^^ y.toNat) rfl, ← BitVec.toNat_xor, BitVec.ofNat_toNat, BitVec.setWidth_eq]

theorem toNat_complement (x : Byte) : (~~~x).toNat = 255 - x.toNat := BitVec.toNat_not

theorem aluValue_not (x : Byte) (y : Nat) : BitVec.ofInt 8 (aluExact .not x.toNat y) = ~~~x := by
  have hexact : aluExact .not x.toNat y = ((~~~x).toNat : Int) := by
    have hx := x.isLt
    rw [toNat_complement]
    simp only [aluExact]
    omega
  rw [ofInt_aluExact_of_eq hexact, BitVec.ofNat_toNat, BitVec.setWidth_eq]

theorem aluValue_shl (x y : Byte) :
    BitVec.ofInt 8 (aluExact .shl x.toNat y.toNat) = if y.toNat < 8 then x <<< y.toNat else 0x00#8 := by
  have hshift : BitVec.ofInt 8 (aluExact .shl x.toNat y.toNat) = x <<< y.toNat := by
    rw [ofInt_aluExact_of_eq (n := x.toNat * 2 ^ y.toNat) rfl]
    apply BitVec.eq_of_toNat_eq
    rw [BitVec.toNat_ofNat, BitVec.toNat_shiftLeft, Nat.shiftLeft_eq]
  split
  · exact hshift
  · exact hshift.trans (BitVec.shiftLeft_eq_zero (by omega))

theorem aluValue_shr (x y : Byte) :
    BitVec.ofInt 8 (aluExact .shr x.toNat y.toNat) = if y.toNat < 8 then x >>> y.toNat else 0x00#8 := by
  have hshift : BitVec.ofInt 8 (aluExact .shr x.toNat y.toNat) = x >>> y.toNat := by
    rw [ofInt_aluExact_of_eq (n := x.toNat / 2 ^ y.toNat) rfl, ← Nat.shiftRight_eq_div_pow, ← BitVec.toNat_ushiftRight,
      BitVec.ofNat_toNat, BitVec.setWidth_eq]
  split
  · exact hshift
  · exact hshift.trans (BitVec.ushiftRight_eq_zero (by omega))

/-! ## The end of an instruction with room -/

theorem exec_of_room {i : Instr} {s u : State} (hu : handlerOf i s = .ok u) (hs : u.status = .running)
    (hroom : s.pc.toNat + (encode i).length ≤ 255)
    (hp : (decodeFields i.opcode).setsPc = false := by simp [decodeFields, Instr.opcode]) :
    exec i s = .next (u.setPc (s.pc + BitVec.ofNat 8 (encode i).length)) := by
  rw [encode_length, Nat.add_comm 1] at hroom ⊢
  rw [← handlerOf_pc hp hu] at hroom ⊢
  rw [exec_of_ok hu, State.advance_of_le hs hp hroom]

/-- An ALU instruction that writes its destination. -/
theorem exec_aluApply {i : Instr} {op : AluOp} {ra : RegIdx} {vb v : Byte} {s : State}
    (hi : handlerOf i s = aluApply op ra vb s) (hs : s.status = .running) (hroom : s.pc.toNat + (encode i).length ≤ 255)
    (hv : BitVec.ofInt 8 (aluExact op (s.reg ra).toNat vb.toNat) = v)
    (hd : ¬(aluDivides op = true ∧ vb = 0x00#8) := by simp [aluDivides]) (hop : op ≠ .cmp := by decide)
    (hp : (decodeFields i.opcode).setsPc = false := by simp [decodeFields, Instr.opcode]) :
    exec i s = .next ((s.setReg ra v).setPc (s.pc + BitVec.ofNat 8 (encode i).length)) :=
  exec_of_room (hi.trans (hv ▸ aluApply_of_write hop hd)) hs hroom hp

/-- A division by zero is a fault wherever the instruction stands. -/
theorem exec_aluApply_of_zero {i : Instr} {op : AluOp} {ra : RegIdx} {vb : Byte} {s : State}
    (hi : handlerOf i s = aluApply op ra vb s) (hd : aluDivides op = true) (hz : vb = 0x00#8) :
    exec i s = .next (s.raise .divideByZero) :=
  exec_of_error (hi.trans (aluApply_of_zero hd hz ra s))

/-! ## The instructions -/

/-- Settles O11: the exact sum is a natural number, reduced modulo 256 by the ALU. -/
theorem addResult : Obligations.AddResult := by
  unfold Obligations.AddResult
  intro s ra rb hs hroom
  exact exec_aluApply (withRegs_regByte ra rb _) hs hroom (ofInt_aluExact_of_eq rfl)

/-- Settles O12: modulo 256 the difference is 256 more. -/
theorem subResult : Obligations.SubResult := by
  unfold Obligations.SubResult
  intro s ra rb hs hroom
  refine exec_aluApply (withRegs_regByte ra rb _) hs hroom (ofInt_aluExact_of_add_eq ?_)
  have hb := (s.reg rb).isLt
  simp only [aluExact]
  omega

/-- Settles O13: the exact product is a natural number, reduced modulo 256 by the ALU. -/
theorem mulResult : Obligations.MulResult := by
  unfold Obligations.MulResult
  intro s ra rb hs hroom
  exact exec_aluApply (withRegs_regByte ra rb _) hs hroom (ofInt_aluExact_of_eq rfl)

/-- Settles O14: the quotient of the two values, or the fault of a zero divisor. -/
theorem divResult : Obligations.DivResult := by
  unfold Obligations.DivResult
  intro s ra rb hs
  refine ⟨fun hz => ?_, fun hz hroom => ?_⟩
  · exact exec_aluApply_of_zero (op := .div) (withRegs_regByte ra rb _) rfl hz
  · exact exec_aluApply (withRegs_regByte ra rb _) hs hroom (ofInt_aluExact_of_eq rfl) (hz ·.2)

/-- Settles O15: the remainder of the two values, or the fault of a zero divisor. -/
theorem modResult : Obligations.ModResult := by
  unfold Obligations.ModResult
  intro s ra rb hs
  refine ⟨fun hz => ?_, fun hz hroom => ?_⟩
  · exact exec_aluApply_of_zero (op := .mod) (withRegs_regByte ra rb _) rfl hz
  · exact exec_aluApply (withRegs_regByte ra rb _) hs hroom (ofInt_aluExact_of_eq rfl) (hz ·.2)

/-- Settles O16: the three bitwise values. -/
theorem bitwiseResults : Obligations.BitwiseResults := by
  unfold Obligations.BitwiseResults
  intro s ra rb hs hroom
  refine ⟨?_, ?_, ?_⟩
  · exact exec_aluApply (withRegs_regByte ra rb _) hs hroom (aluValue_and _ _)
  · exact exec_aluApply (withRegs_regByte ra rb _) hs hroom (aluValue_or _ _)
  · exact exec_aluApply (withRegs_regByte ra rb _) hs hroom (aluValue_xor _ _)

/-- Settles O17: 255 less the value is its complement. -/
theorem notResult : Obligations.NotResult := by
  unfold Obligations.NotResult
  intro s ra hs hroom
  exact ⟨exec_aluApply (withReg_regByte ra _) hs hroom (aluValue_not _ _), toNat_complement _⟩

/-- Settles O18: the exact value is the product with a power of two. -/
theorem shlResult : Obligations.ShlResult := by
  unfold Obligations.ShlResult
  intro s ra rb hs hroom
  exact exec_aluApply (withRegs_regByte ra rb _) hs hroom (aluValue_shl _ _)

/-- Settles O19: the exact value is the quotient by a power of two. -/
theorem shrResult : Obligations.ShrResult := by
  unfold Obligations.ShrResult
  intro s ra rb hs hroom
  exact exec_aluApply (withRegs_regByte ra rb _) hs hroom (aluValue_shr _ _)

/-- Settles O20: modulo 256, subtracting 1 is adding 255. -/
theorem incDecResults : Obligations.IncDecResults := by
  unfold Obligations.IncDecResults
  intro s ra hs hroom
  refine ⟨?_, ?_⟩
  · exact exec_aluApply (withReg_regByte ra _) hs hroom (ofInt_aluExact_of_eq rfl)
  · refine exec_aluApply (withReg_regByte ra _) hs hroom (ofInt_aluExact_of_add_eq ?_)
    simp only [aluExact]
    omega

/-- Settles O21: the handler writes `fl` alone. -/
theorem cmpResult : Obligations.CmpResult := by
  unfold Obligations.CmpResult
  intro s ra rb hs hroom
  have hu : handlerOf (.cmp (regByte ra) (regByte rb)) s = .ok (s.setFl (compareFlags (s.reg ra) (s.reg rb))) :=
    withRegs_regByte ra rb _
  exact exec_of_room hu hs hroom

/-- Settles O22: the immediate is the second value as it stands. -/
theorem addiResult : Obligations.AddiResult := by
  unfold Obligations.AddiResult
  intro s ra imm hs hroom
  exact exec_aluApply (withReg_regByte ra _) hs hroom (ofInt_aluExact_of_eq rfl)

end Sys2Proof.Machine
end

section
/-! The next state of each data, stack, control and system instruction, written out (spec/42_data_stack.md,
spec/43_control_transfer.md, spec/44_system_io.md). -/

namespace Sys2Proof.Machine

/-! ## Loads, stores, NOP and output -/

/-- Settles O23: the handler writes the immediate. -/
theorem ldiResult : Obligations.LdiResult := by
  unfold Obligations.LdiResult
  intro s ra imm hs hroom
  have hu : handlerOf (.ldi (regByte ra) imm) s = .ok (s.setReg ra imm) := withReg_regByte ra _
  exact exec_of_room hu hs hroom

/-- Settles O24: the handler writes the byte at the address in `rb`. -/
theorem ldResult : Obligations.LdResult := by
  unfold Obligations.LdResult
  intro s ra rb hs hroom
  have hu : handlerOf (.ld (regByte ra) (regByte rb)) s = .ok (s.setReg ra (s.readByte (s.reg rb))) :=
    withRegs_regByte ra rb _
  exact exec_of_room hu hs hroom

/-- Settles O25: the handler writes the one cell. -/
theorem stResult : Obligations.StResult := by
  unfold Obligations.StResult
  intro s ra rb hs hroom
  have hu : handlerOf (.st (regByte ra) (regByte rb)) s = .ok (s.writeByte (s.reg ra) (s.reg rb)) :=
    withRegs_regByte ra rb _
  exact exec_of_room hu hs hroom

/-- Settles O35: below 255 the advance has room, at 255 it raises address 256. -/
theorem nopResult : Obligations.NopResult := by
  unfold Obligations.NopResult
  intro s hs
  have hu : handlerOf .nop s = .ok s := rfl
  refine ⟨fun hle => exec_of_room hu hs (show s.pc.toNat + 1 ≤ 255 by omega), fun htop => ?_⟩
  have hgt : 255 < s.pc.toNat + ((decodeFields Instr.nop.opcode).operandCount.toNat + 1) := by
    rw [operandCount_opcode, htop]
    decide
  rw [exec_of_ok hu, State.advance_of_gt hs rfl hgt, operandCount_opcode, htop]
  rfl

/-- Settles O36: the handlers append one event. -/
theorem prnPraResults : Obligations.PrnPraResults := by
  unfold Obligations.PrnPraResults
  intro s ra hs hroom
  have hprn : handlerOf (.prn (regByte ra)) s = .ok (s.emit (.num (s.reg ra))) := withReg_regByte ra _
  have hpra : handlerOf (.pra (regByte ra)) s = .ok (s.emit (.char (s.reg ra))) := withReg_regByte ra _
  exact ⟨exec_of_room hprn hs hroom, exec_of_room hpra hs hroom⟩

/-! ## The stack -/

/-- A push as the fields it changes. -/
theorem State.pushWith_eq (s : State) (f : State → Byte) :
    s.pushWith f =
      { s with
        regs := s.regs.set 7 (s.reg 7 - 1#8)
        mem := Memory.store s.mem (s.reg 7 - 1#8).toNat (f (s.setSp (s.reg 7 - 1#8))) } :=
  State.eq_of_fields (s.pushWith_mem f) rfl rfl rfl rfl rfl

/-- A register read after SP is set. -/
theorem State.reg_setSp (s : State) (v : Byte) (q : RegIdx) : (s.setSp v).reg q = if q = 7 then v else s.reg q :=
  s.reg_setReg Config.spIndex q v

/-- Settles O26: the pushed register is read after SP is decremented. -/
theorem pushResult : Obligations.PushResult := by
  unfold Obligations.PushResult
  intro s ra hs hroom
  have hu : handlerOf (.push (regByte ra)) s = .ok (s.pushWith fun t => t.reg ra) := withReg_regByte ra _
  have h := exec_of_room hu hs hroom
  rw [State.pushWith_eq, State.reg_setSp] at h
  exact h

/-- Settles O27: SP is read again after the register is written, which matters for R7 only. -/
theorem popResult : Obligations.PopResult := by
  unfold Obligations.PopResult
  intro s ra hs hroom
  have hu : handlerOf (.pop (regByte ra)) s = .ok (s.setReg ra s.stackTop).dropTop := withReg_regByte ra _
  have h := exec_of_room hu hs hroom
  rw [State.dropTop] at h
  constructor
  · intro hne
    have hsp : (s.setReg ra s.stackTop).sp = s.reg 7 := State.reg_setReg_ne s _ hne.symm
    rw [hsp] at h
    exact h
  · rintro rfl
    have hsp : (s.setReg 7 s.stackTop).sp = s.stackTop := State.reg_setReg_same s _ _
    rw [h, hsp]
    exact congrArg Host.Outcome.next (State.eq_of_fields rfl (Vector.set_set _ (by decide)) rfl rfl rfl rfl)

/-! ## Jumps, CALL and RET -/

/-- Settles O28: the PC-set bit keeps the dispatcher from adding to the target. -/
theorem jmpResult : Obligations.JmpResult := by
  unfold Obligations.JmpResult
  intro s ra hs
  have hu : handlerOf (.jmp (regByte ra)) s = .ok (s.setPc (s.reg ra)) := withReg_regByte ra _
  exact exec_of_setsPc (by simp [setsPc_opcode]) hu

/-- The three outcomes of a conditional jump with a valid register (R139). -/
theorem exec_jumpIf {i : Instr} {taken : Bool} {ra : RegIdx} {s : State}
    (hi : handlerOf i s = jumpIf taken (regByte ra) s)
    (hp : (decodeFields i.opcode).setsPc = true := by simp [decodeFields, Instr.opcode]) :
    (taken = true → exec i s = .next { s with pc := s.reg ra }) ∧
    (taken = false → s.pc.toNat + 2 ≤ 255 → exec i s = .next { s with pc := s.pc + 2#8 }) ∧
    (taken = false → 255 < s.pc.toNat + 2 →
      exec i s = .next { s with status := .faulted (.addressOutOfRange (s.pc.toNat + 2)) }) := by
  refine ⟨?_, ?_, ?_⟩
  · rintro rfl
    exact exec_of_setsPc hp (hi.trans (withReg_regByte ra _))
  · rintro rfl hle
    refine exec_of_setsPc hp (hi.trans ((withReg_regByte ra _).trans ?_))
    rw [pcPlus_of_le hle]
    rfl
  · rintro rfl hgt
    refine exec_of_error (hi.trans ((withReg_regByte ra _).trans ?_))
    rw [pcPlus_of_gt hgt]
    rfl

/-- Settles O29: the two conditions are the bit tests of `fl`. -/
theorem jeqJneResults : Obligations.JeqJneResults := by
  unfold Obligations.JeqJneResults
  intro s ra hs
  exact List.forall_mem_cons.mpr ⟨exec_jumpIf rfl, List.forall_mem_singleton.mpr (exec_jumpIf rfl)⟩

/-- Settles O30: the two conditions are the bit tests of `fl`. -/
theorem jgtJltResults : Obligations.JgtJltResults := by
  unfold Obligations.JgtJltResults
  intro s ra hs
  exact List.forall_mem_cons.mpr ⟨exec_jumpIf rfl, List.forall_mem_singleton.mpr (exec_jumpIf rfl)⟩

/-- Settles O31: the two conditions are the bit tests of `fl`. -/
theorem jgeJleResults : Obligations.JgeJleResults := by
  unfold Obligations.JgeJleResults
  intro s ra hs
  exact List.forall_mem_cons.mpr ⟨exec_jumpIf rfl, List.forall_mem_singleton.mpr (exec_jumpIf rfl)⟩

/-- Settles O32: the return address is checked before the push, and the target is read after it. -/
theorem callResult : Obligations.CallResult := by
  unfold Obligations.CallResult
  intro s ra hs
  constructor
  · intro hle
    have hu : handlerOf (.call (regByte ra)) s =
        .ok ((s.pushWith fun _ => s.pc + 2#8).setPc ((s.pushWith fun _ => s.pc + 2#8).reg ra)) := by
      refine (withReg_regByte ra _).trans ?_
      rw [pcPlus_of_le hle]
    have h := exec_of_setsPc (by simp [setsPc_opcode]) hu
    rw [State.pushWith_reg, State.pushWith_eq, State.reg_setSp] at h
    exact h
  · intro hgt
    refine exec_of_error ((withReg_regByte ra _).trans ?_)
    rw [pcPlus_of_gt hgt]

/-- Settles O33: RET's opcode has the PC-set bit, so nothing is added to the popped address. -/
theorem retResult : Obligations.RetResult := by
  unfold Obligations.RetResult
  intro s hs
  exact exec_of_setsPc (by simp [setsPc_opcode]) rfl

/-! ## Laws over two instructions, and the byte stored -/

/-- The byte a store writes is read back from a state with that memory, and is the first byte fetched where `pc` points at
it. -/
theorem State.readByte_of_store {s t : State} (hm : Memory.wf s.mem = true) {x v : Byte}
    (ht : t.mem = Memory.store s.mem x.toNat v) :
    t.readByte x = v ∧ (t.pc = x → t.fetchBytes.head? = some v) := by
  have hread : t.readByte x = v := by
    rw [State.readByte, ht]
    exact Memory.load_store_same hm _ _
  refine ⟨hread, ?_⟩
  rintro rfl
  exact congrArg some hread

/-- Settles O43: each of the three instructions leaves the memory of one store. -/
theorem storedByteReadsBack : Obligations.StoredByteReadsBack := by
  unfold Obligations.StoredByteReadsBack
  intro s t ra rb hs hm
  refine ⟨fun hroom h => ?_, fun hroom h => ?_, fun hroom h => ?_⟩
  · cases (stResult s ra rb hs hroom).symm.trans h
    exact State.readByte_of_store hm rfl
  · cases (pushResult s ra hs hroom).symm.trans h
    exact State.readByte_of_store hm rfl
  · cases ((callResult s ra hs).1 hroom).symm.trans h
    exact State.readByte_of_store hm rfl

theorem toNat_add_of_le {A : Byte} {k : Nat} (h : A.toNat + k ≤ 255) : (A + BitVec.ofNat 8 k).toNat = A.toNat + k := by
  rw [BitVec.toNat_add, BitVec.toNat_ofNat, Nat.add_mod_mod, Nat.mod_eq_of_lt (by omega)]

/-- What PUSH of a register other than SP leaves for a POP. -/
theorem exec_push_top {s : State} {ra : RegIdx} (hs : s.status = .running) (hm : Memory.wf s.mem = true)
    (hroom : s.pc.toNat + 2 ≤ 255) (hra : ra ≠ 7) :
    ∃ t : State, exec (.push (regByte ra)) s = .next t ∧ t.status = .running ∧ t.pc = s.pc + 2#8 ∧
      t.reg 7 = s.reg 7 - 1#8 ∧ t.readByte (s.reg 7 - 1#8) = s.reg ra := by
  have hpush := pushResult s ra hs hroom
  rw [if_neg hra] at hpush
  exact ⟨_, hpush, hs, rfl, State.reg_setReg_same s 7 _, (State.readByte_of_store hm rfl).1⟩

/-- What POP into a register other than SP does to the two registers. -/
theorem exec_pop_regs {s : State} {ra : RegIdx} (hs : s.status = .running) (hroom : s.pc.toNat + 2 ≤ 255) (hra : ra ≠ 7) :
    ∃ t : State, exec (.pop (regByte ra)) s = .next t ∧ t.reg ra = s.readByte (s.reg 7) ∧ t.reg 7 = s.reg 7 + 1#8 := by
  obtain ⟨hpop, -⟩ := popResult s ra hs hroom
  refine ⟨_, hpop hra, ?_, ?_⟩
  · exact (State.reg_setReg_ne (s.setReg ra _) _ hra).trans (State.reg_setReg_same s ra _)
  · exact State.reg_setReg_same (s.setReg ra _) 7 _

/-- Settles O56: POP reads back the byte PUSH stored, and the two moves of SP cancel. -/
theorem pushThenPopRestores : Obligations.PushThenPopRestores := by
  unfold Obligations.PushThenPopRestores
  intro s ra rb hs hm hroom hra hrb
  obtain ⟨t, ht, hts, hpc, hsp, hbyte⟩ := exec_push_top hs hm (by omega) hra
  have htroom : t.pc.toNat + 2 ≤ 255 := by
    rw [hpc, toNat_add_of_le (by omega)]
    omega
  obtain ⟨u, hu, hub, husp⟩ := exec_pop_regs hts htroom hrb
  refine ⟨t, u, ht, hu, ?_, ?_⟩
  · rw [hub, hsp, hbyte]
  · rw [husp, hsp, BitVec.sub_add_cancel]

/-- What CALL leaves for a RET. -/
theorem exec_call_top {s : State} (ra : RegIdx) (hs : s.status = .running) (hm : Memory.wf s.mem = true)
    (hroom : s.pc.toNat + 2 ≤ 255) :
    ∃ t : State, exec (.call (regByte ra)) s = .next t ∧ t.reg 7 = s.reg 7 - 1#8 ∧
      t.readByte (s.reg 7 - 1#8) = s.pc + 2#8 := by
  obtain ⟨hcall, -⟩ := callResult s ra hs
  exact ⟨_, hcall hroom, State.reg_setReg_same s 7 _, (State.readByte_of_store hm rfl).1⟩

/-- Settles O57: RET reads the byte CALL stored, and the two moves of SP cancel. -/
theorem callThenRetResumes : Obligations.CallThenRetResumes := by
  unfold Obligations.CallThenRetResumes
  intro s ra hs hm hroom
  obtain ⟨t, ht, hsp, hback⟩ := exec_call_top ra hs hm hroom
  refine ⟨t, ht, fun u hu husp hbyte => ⟨_, retResult u hu, ?_, ?_⟩⟩
  · show u.readByte (u.reg 7) = s.pc + 2#8
    rw [husp, hbyte, hsp, hback]
  · show (u.setReg 7 (u.reg 7 + 1#8)).reg 7 = s.reg 7
    rw [State.reg_setReg_same, husp, hsp, BitVec.sub_add_cancel]

/-- Subtraction undoes addition modulo 256. -/
theorem ofNat_add_sub (x y : Byte) :
    BitVec.ofNat 8 ((BitVec.ofNat 8 (x.toNat + y.toNat)).toNat + 256 - y.toNat) = x := by
  have hx := x.isLt
  have hy := y.isLt
  apply BitVec.eq_of_toNat_eq
  rw [BitVec.toNat_ofNat, BitVec.toNat_ofNat]
  omega

/-- Division undoes a multiplication whose product fits a byte. -/
theorem ofNat_mul_div {x y : Byte} (hy : y ≠ 0x00#8) (h : x.toNat * y.toNat ≤ 255) :
    BitVec.ofNat 8 ((BitVec.ofNat 8 (x.toNat * y.toNat)).toNat / y.toNat) = x := by
  have hpos : 0 < y.toNat := Nat.pos_of_ne_zero fun h0 => hy (BitVec.eq_of_toNat_eq h0)
  rw [BitVec.toNat_ofNat, Nat.mod_eq_of_lt (by omega), Nat.mul_div_cancel _ hpos, BitVec.ofNat_toNat, BitVec.setWidth_eq]

theorem State.reg_written_same (s : State) (r : RegIdx) (v p : Byte) :
    ({ s with regs := s.regs.set r.val v, pc := p } : State).reg r = v := s.reg_setReg_same r v

theorem State.reg_written_ne (s : State) {r q : RegIdx} (v p : Byte) (h : q ≠ r) :
    ({ s with regs := s.regs.set r.val v, pc := p } : State).reg q = s.reg q := s.reg_setReg_ne v h

/-- Settles O58: the second instruction finds the first one's result in `x[ra]` and the old value in `x[rb]`. -/
theorem arithmeticLaws : Obligations.ArithmeticLaws := by
  unfold Obligations.ArithmeticLaws
  intro s ra rb hs hroom hne
  have hpc : (s.pc + 3#8).toNat + 3 ≤ 255 := by
    rw [toNat_add_of_le (by omega)]
    omega
  constructor
  · refine ⟨_, _, addResult s ra rb hs (by omega), subResult _ ra rb hs hpc, ?_⟩
    rw [State.reg_written_same, State.reg_written_same, State.reg_written_ne s _ _ hne.symm, ofNat_add_sub]
  · intro hz hprod
    have hdivisor : ∀ v p : Byte, ({ s with regs := s.regs.set ra.val v, pc := p } : State).reg rb = s.reg rb :=
      fun v p => s.reg_written_ne v p hne.symm
    obtain ⟨-, hdiv⟩ := divResult
      { s with
        regs := s.regs.set ra.val (BitVec.ofNat 8 ((s.reg ra).toNat * (s.reg rb).toNat))
        pc := s.pc + 3#8 } ra rb hs
    refine ⟨_, _, mulResult s ra rb hs (by omega), hdiv (by rwa [hdivisor]) hpc, ?_⟩
    rw [State.reg_written_same, State.reg_written_same, hdivisor, ofNat_mul_div hz hprod]

end Sys2Proof.Machine
end
